-- ==== Sys2Proof/Config.lean ====
section
/-! DEFINITION. What one implementation of CRC-CORE fixes (the register width `W`, spec R5, and the counter width
`CW` derived from it, R6), and the values the spec leaves open, as constants without a body. -/

namespace Sys2Proof

/-- R5: the one implementation parameter, the register width `W`; its legal values are 8, 16, 32 and 64. -/
inductive Width where
  | w8
  | w16
  | w32
  | w64
deriving DecidableEq, Repr

namespace Width

/-- The number `W` of bits of every operand and every result (R5). -/
def bits : Width → Nat
  | .w8 => 8
  | .w16 => 16
  | .w32 => 32
  | .w64 => 64

/-- R6: `CW = len(W + 1)`, the number of bits of the counter IDX: the rule's own figures 4, 5, 6 and 7. -/
def cw : Width → Nat
  | .w8 => 4
  | .w16 => 5
  | .w32 => 6
  | .w64 => 7

/-- R5: the reference case, and the width `spec/opcode_table.json` is written for. -/
def reference : Width := .w16

end Width

/-- Why a configuration is refused. -/
inductive ConfigError where
  /-- U15: a width other than 8, 16, 32 or 64 is no legal value of the parameter (log entry 2). Safe. -/
  | illegalWidth (bits : Nat)
deriving DecidableEq, Repr

/-- The width of a configuration request; every width but the four of R5 is refused by name (U15). -/
def Width.ofBits (n : Nat) : Except ConfigError Width :=
  if n = 8 then .ok .w8
  else if n = 16 then .ok .w16
  else if n = 32 then .ok .w32
  else if n = 64 then .ok .w64
  else .error (.illegalWidth n)

namespace Config

/-- The nine registers whose value after a RESET event the spec leaves unspecified (R37, R180). -/
inductive FreeSite where
  | op
  | a
  | b
  | quot
  | acc
  | idx
  | cause
  | res0
  | res1
deriving DecidableEq, Repr

/-- R37, R180, U10: the `w`-bit value that the register `site` holds after the RESET event numbered `n`. It has no
body: nothing can be proved of it (log entry 4). -/
opaque freeBits (w : Nat) (site : FreeSite) (n : Nat) : BitVec w

/-- R100: the value of `bitat(v, i)` outside its domain `1 <= i <= len(v)`, where the spec does not define it. It
has no body (log entry 5). No reachable step uses it (R101). -/
opaque bitatOutside (w : Nat) (v : BitVec w) (i : Nat) : Bool

end Config

end Sys2Proof
end

