-- ==== Sys2Proof/Word.lean ====
section
/-! DEFINITION. The word types of CRC-CORE (R5 to R8) and the plainest conversions between numbers and words. -/

namespace Sys2Proof

/-- R5, R7: an operand, a result or a polynomial value: exactly `W` bits, bit `i` the coefficient of `x^i`. -/
abbrev Word (W : Width) := BitVec W.bits

/-- R6, R26: the iteration counter IDX, `CW` bits. -/
abbrev Counter (W : Width) := BitVec W.cw

/-- R70: the field `op`, two bits. -/
abbrev Opcode := BitVec 2

/-- R70, R74: the number of bits of a request word and of a response word, `2W + 2`. -/
def Width.wireBits (W : Width) : Nat := 2 * W.bits + 2

/-- R70: a request word. R74: a response word. -/
abbrev Wire (W : Width) := BitVec W.wireBits

/-- `trunc_w(n)` of the notation table (00_scope.md section 7): `n mod 2^w`. -/
def trunc (w n : Nat) : BitVec w := BitVec.ofNat w n

/-- `zext_w` of one bit: 0 or 1 as a `w`-bit value. -/
def zextBit (w : Nat) (d : Bool) : BitVec w := BitVec.ofNat w d.toNat

end Sys2Proof
end

