-- ==== Sys2Proof/Syntax.lean ====
section
/-! DEFINITION. The syntax of CRC-CORE: the four commands (R3, R71, R73), and the outcome of a command (R74 to R76,
R150). -/

namespace Sys2Proof

/-- R71, R73: the four commands, one constructor per row of `spec/opcode_table.json`, each with the two operand fields
`a` and `b` of its request word as unsigned numbers (R72). Which numbers are operands depends on the width `W` and is
checked by `Instr.WellFormed`. -/
inductive Instr where
  /-- BITLEN: `a` is the value to scan; `b` is carried and ignored (R73). -/
  | bitlen (n unused : Nat)
  /-- BITAT: `a` is the value, `b` the 1-based index counted from the most significant set bit (R73). -/
  | bitat (value index : Nat)
  /-- EXTEND: `a` is the message, `b` the number of zero bits to append (R73). -/
  | extend (message degree : Nat)
  /-- POLYDIV: `a` is the dividend, `b` the divisor (R73). -/
  | polydiv (dividend divisor : Nat)
deriving DecidableEq, Repr

namespace Instr

/-- R70, R73: the field `a`, the first operand. -/
def fieldA : Instr → Nat
  | .bitlen n _ => n
  | .bitat value _ => value
  | .extend message _ => message
  | .polydiv dividend _ => dividend

/-- R70, R73: the field `b`, the second operand. -/
def fieldB : Instr → Nat
  | .bitlen _ unused => unused
  | .bitat _ index => index
  | .extend _ degree => degree
  | .polydiv _ divisor => divisor

end Instr

/-- R150: the causes of InvalidArgument, the one exception of the core. -/
inductive InvalidArgument where
  /-- Code 1, raised by BITLEN and BITAT when `a = 0` (R151). -/
  | zeroOperand
  /-- Code 2, raised by POLYDIV when `b = 0` (R152). -/
  | zeroDivisor
  /-- Code 3, raised by BITAT when `a != 0` and the index is 0 or above `len(a)` (R153). -/
  | indexRange
deriving DecidableEq, Repr

/-- R74, R76: the outcome of a command as the host receives it, either a result or a failure and never both: a failure
has no result values. -/
inductive Response (W : Width) where
  | result (res0 res1 : Word W)
  | failure (cause : InvalidArgument)
deriving DecidableEq, Repr

/-- Why a number is no request word. -/
inductive DecodeError where
  /-- R70, R78: the number has a bit set at or above position `2W + 2`, the one length of a request word. Safe. -/
  | tooLong
deriving DecidableEq, Repr

end Sys2Proof
end

