-- ==== Sys2Proof/WellFormed.lean ====
section
/-! DEFINITION. Which instruction terms are commands of a core of width `W` (R72). -/

namespace Sys2Proof

/-- R72: a number is an operand when it is a `W`-bit unsigned number, `0` to `2^W - 1`. -/
abbrev FitsWidth (W : Width) (n : Nat) : Prop := n < 2 ^ W.bits

/-- R72, R77: both fields are `W`-bit numbers; there is no other condition on a command. -/
abbrev Instr.WellFormed (W : Width) (i : Instr) : Prop := FitsWidth W i.fieldA ∧ FitsWidth W i.fieldB

end Sys2Proof
end

