-- ==== Sys2Proof/Decode.lean ====
section
/-! DEFINITION. Decoding and encoding of request words (R70 to R73, R77 to R79) and of response words (R74 to R76). -/

namespace Sys2Proof

/-! ## The request word -/

/-- R70: the field `op`, bits `[2W+1 : 2W]` of the request word. -/
def reqOp {W : Width} (word : Wire W) : Opcode := word.extractLsb' (2 * W.bits) 2

/-- R70: the field `a`, bits `[2W-1 : W]` of the request word. -/
def reqA {W : Width} (word : Wire W) : Word W := word.extractLsb' W.bits W.bits

/-- R70: the field `b`, bits `[W-1 : 0]` of the request word. -/
def reqB {W : Width} (word : Wire W) : Word W := word.extractLsb' 0 W.bits

/-- R71: the command that the field `op` selects. All four values are assigned (R77). -/
def Instr.ofFields (op : Opcode) (a b : Nat) : Instr :=
  match op.toNat with
  | 0 => .bitlen a b
  | 1 => .bitat a b
  | 2 => .extend a b
  | _ => .polydiv a b

/-- R77: the command of a request word; every request word has one. -/
def decodeWord (W : Width) (word : Wire W) : Instr :=
  Instr.ofFields (reqOp word) (reqA word).toNat (reqB word).toNat

/-- The command of a number read as a request word of a core of width `W`; a number of more than `2W + 2` bits is no
request word (R70, R78). -/
def decode (W : Width) (n : Nat) : Except DecodeError Instr :=
  if n < 2 ^ W.wireBits then .ok (decodeWord W (BitVec.ofNat _ n)) else .error .tooLong

/-- The command of a word numbered as `spec/opcode_table.json` numbers it, for the table's width `W = 16` (R79). A
request word is one number and has no byte order (R53); the bits at and above `nbits` are 0. -/
def decodeTableWord (nbits w : Nat) : Option Instr :=
  match decode Width.reference (w % 2 ^ nbits) with
  | .ok i => some i
  | .error _ => none

/-- R71: the opcode of a command. -/
def Instr.opcode : Instr → Opcode
  | .bitlen _ _ => 0b00#2
  | .bitat _ _ => 0b01#2
  | .extend _ _ => 0b10#2
  | .polydiv _ _ => 0b11#2

/-- R70: the number `op × 2^(2W) + a × 2^W + b`. -/
def packFields (W : Width) (hi : BitVec 2) (mid lo : Nat) : Nat :=
  hi.toNat * 2 ^ (2 * W.bits) + mid * 2 ^ W.bits + lo

/-- R70: the request word of a command of a core of width `W`. -/
def encode (W : Width) (i : Instr) : Wire W := BitVec.ofNat _ (packFields W i.opcode i.fieldA i.fieldB)

/-- R79: the mask of every row of the opcode map, `3 × 2^(2W)`. -/
def rowMask (W : Width) : Wire W := BitVec.ofNat _ (3 * 2 ^ (2 * W.bits))

/-- R79: the match of the row of opcode `op`, `op × 2^(2W)`. -/
def rowMatch (W : Width) (op : Opcode) : Wire W := BitVec.ofNat _ (op.toNat * 2 ^ (2 * W.bits))

/-! ## Cause codes and the response word -/

/-- R150: the code 0, NONE: the command has a result. -/
def causeNone : BitVec 2 := 0

/-- R150: the 2-bit code of a cause of InvalidArgument. -/
def InvalidArgument.code : InvalidArgument → BitVec 2
  | .zeroOperand => 1
  | .zeroDivisor => 2
  | .indexRange => 3

/-- R150: the cause of a code; the code 0 is no cause. -/
def InvalidArgument.ofCode (c : BitVec 2) : Option InvalidArgument :=
  match c.toNat with
  | 1 => some .zeroOperand
  | 2 => some .zeroDivisor
  | 3 => some .indexRange
  | _ => none

/-- R74, R76: a cause code and two result values read as an outcome; the values count only when the code is 0. -/
def Response.ofFields {W : Width} (cause : BitVec 2) (res0 res1 : Word W) : Response W :=
  match InvalidArgument.ofCode cause with
  | none => .result res0 res1
  | some c => .failure c

/-- R74: the field `cause` of an outcome. -/
def Response.cause {W : Width} : Response W → BitVec 2
  | .result _ _ => causeNone
  | .failure c => c.code

/-- R74, R76: the response word of an outcome. The fields `res0` and `res1` of a failed response carry no information:
whatever bits stand there are the arguments `stale0` and `stale1`. -/
def encodeResponse {W : Width} (r : Response W) (stale0 stale1 : Word W) : Wire W :=
  match r with
  | .result res0 res1 => BitVec.ofNat _ (packFields W causeNone res0.toNat res1.toNat)
  | .failure c => BitVec.ofNat _ (packFields W c.code stale0.toNat stale1.toNat)

/-- R74: the outcome that a response word carries; its fields lie where those of a request word lie. -/
def decodeResponse {W : Width} (word : Wire W) : Response W := Response.ofFields (reqOp word) (reqA word) (reqB word)

end Sys2Proof
end

