-- ==== Sys2Proof/Machine/State.lean ====
section
/-! DEFINITION. The state of one CRC-CORE with its host (R13, R20, R23), as plain data; the reasons a step can stop;
the state right after reset (R37, R180). -/

namespace Sys2Proof.Machine

/-- R23: the three phases. How PHASE is spelled in bits is not visible and not specified. -/
inductive Phase where
  /-- The core holds no command and can accept one. -/
  | idle
  /-- The core holds a command and has not finished it. -/
  | busy
  /-- The core holds the outcome of a finished command until the host collects it. -/
  | done
deriving DecidableEq, Repr

/-- R20: the ten registers of a core of width `W`, and no others. -/
structure Regs (W : Width) where
  /-- PHASE (R23). -/
  phase : Phase
  /-- OP, the opcode of the command in progress (R24). -/
  op : Opcode
  /-- A, the first operand of the command in progress (R24). -/
  a : Word W
  /-- B, the second operand of the command in progress (R24). -/
  b : Word W
  /-- QUOT, the quotient of the division so far (R25). -/
  quot : Word W
  /-- ACC, the accumulator of the division, its running partial remainder (R25). -/
  acc : Word W
  /-- IDX, the 1-based position of the next dividend bit (R26). -/
  idx : Counter W
  /-- CAUSE, 0 if the finished command has a result, else why it has none (R28, R150). -/
  cause : BitVec 2
  /-- RES0, the first result (R28, R75). -/
  res0 : Word W
  /-- RES1, the second result (R28, R75). -/
  res1 : Word W
deriving DecidableEq, Repr

/-- R29, R80: what stands at the core's inputs at one instant, and whether the core makes its own step then if it has
one to make (R191: when it does is not specified; an implementation of R80 always does). -/
structure Edge (W : Width) where
  /-- `rst`: the host resets the core (R180). -/
  rst : Bool
  /-- `req_valid` with `req_op`, `req_a`, `req_b`: the request word the host offers, if any (R70). -/
  req : Option (Wire W)
  /-- `rsp_ready`: the host takes a response if there is one (R32). -/
  rspReady : Bool
  /-- The core, if BUSY, makes its own step EXEC now (R31, R191). -/
  run : Bool
deriving DecidableEq, Repr

/-- R191: nothing from the host; the core goes on by itself if it is BUSY. -/
def Edge.quiet {W : Width} : Edge W := { rst := false, req := none, rspReady := false, run := true }

/-- R29: the four events, the only things that change the registers. -/
inductive Event (W : Width) where
  /-- ISSUE of a request word, by the host (R30). -/
  | issue (word : Wire W)
  /-- EXEC, the core's own step (R31). -/
  | exec
  /-- COLLECT, by the host (R32). -/
  | collect
  /-- RESET, by the host (R180). -/
  | reset
deriving DecidableEq, Repr

/-- The state: the registers of the core, and what a closed model must hold beside them (log entries 1, 3 and 4): the
configured width, the host's side of the interface and a counter of RESET events. -/
structure State where
  /-- R5: the width the core was built with. It is configuration: no event changes it. -/
  width : Width
  /-- R20: the ten registers. -/
  regs : Regs width
  /-- R13, R189: what the host will do, oldest first; at the end of the list it does nothing more. -/
  inputs : List (Edge width)
  /-- R32, R193: the responses the host has collected, in issue order. -/
  received : List (Response width)
  /-- The MODEL's own: how many RESET events have happened, the argument of the free values of R37. -/
  resets : Nat
deriving DecidableEq, Repr

/-- The faults of the machine. There are none: the one exception of the core, InvalidArgument, is a completed command
with a failure for a response (R168), and nothing else can go wrong in it (R29, R150). -/
inductive Fault where
deriving DecidableEq, Repr

/-- The reasons for which a meaning answers no state. -/
inductive Refusal where
  /-- The arm of `exec` of an instruction that has no meaning yet. No arm raises it: all four have their meaning.
  Safe. -/
  | notModelled (mnemonic : String)
  /-- Raised by every meaning when an operand of the instruction TERM is not a `W`-bit number, so that no request word
  of this core spells the term (R70, R72; log entry 6). `step` never raises it: the operands it runs are the
  registers A and B. Safe. -/
  | operandTooWide
deriving DecidableEq, Repr

/-- R37: the registers right after RESET: PHASE is IDLE. The spec gives no value for the other nine; here they hold 0
(DESIGN CHOICE, log entry 7, unsafe), which no rule can read (R38). -/
def Regs.reset (W : Width) : Regs W :=
  { phase := .idle, op := 0, a := 0, b := 0, quot := 0, acc := 0, idx := 0, cause := 0, res0 := 0, res1 := 0 }

/-- R183: the state a run starts from, for a core of width `W`. The host has collected nothing and does nothing yet. -/
def State.resetAt (W : Width) : State :=
  { width := W, regs := Regs.reset W, inputs := [], received := [], resets := 0 }

/-- R183: the state a run starts from, for the reference width 16 (R5). -/
def State.reset : State := State.resetAt Width.reference

end Sys2Proof.Machine
end

