-- ==== Sys2Proof/Machine/Ops.lean ====
section
/-! DEFINITION. The operations the four commands share: the bit-length scanner, the bit-extractor, the left shift, one
iteration of the division; the two ways a command ends; the events ISSUE, COLLECT and RESET on the registers. -/

namespace Sys2Proof.Machine

/-! ## Operations on words (R200) -/

/-- R90, R91: `len` by examining bits: the number of the highest set bit below position `k`, plus 1; 0 if there is
none. -/
def scan {w : Nat} (v : BitVec w) : Nat → Nat
  | 0 => 0
  | k + 1 => if v.getLsbD k then k + 1 else scan v k

/-- R90: `len`, the number of significant bits; `len(0) = 0` (R94). -/
def len {w : Nat} (v : BitVec w) : Nat := scan v w

/-- R100: `bitat(v, i)`, the bit of `v` at position index `i`: `v` shifted right by `len(v) - i`, then the lowest bit.
Outside `1 <= i <= len(v)` the spec defines no value, and it is free (log entry 5). -/
def bitat {w : Nat} (v : BitVec w) (i : Nat) : Bool :=
  if 1 ≤ i ∧ i ≤ len v then (v >>> (len v - i)).getLsbD 0 else Config.bitatOutside w v i

/-- R110: `trunc_W(m << d)`: 0 for a degree of `W` or more, else the low `W` bits of the shifted message. -/
def extendWord {w : Nat} (m : BitVec w) (d : Nat) : BitVec w :=
  if w ≤ d then 0 else trunc w (m.toNat * 2 ^ d)

/-- R123 step b: the accumulator after the digit is brought down. -/
def bringDown {w : Nat} (acc : BitVec w) (digit : Bool) : BitVec w := acc <<< 1 ||| zextBit w digit

/-- R123 step c: the divisor fits under the accumulator. -/
def fits {w : Nat} (divisor acc1 : BitVec w) : Bool := decide (len divisor ≤ len acc1)

/-- R123: quotient and accumulator after the iteration with index `i` of the division of `a` by `b`. -/
def divStep {w : Nat} (a b : BitVec w) (i : Nat) (quot acc : BitVec w) : BitVec w × BitVec w :=
  let acc1 := bringDown acc (bitat a i)
  if fits b acc1 then (quot <<< 1 ||| zextBit w true, acc1 ^^^ b) else (quot <<< 1, acc1)

/-! ## How a command ends -/

/-- R158: `raise InvalidArgument(cause)`, the only exception entry of the core: CAUSE is the code, PHASE is DONE, and
nothing else is written. There is no return from it (R159): the host collects the response, as after a result. -/
def raise {W : Width} (c : InvalidArgument) (r : Regs W) : Regs W := { r with cause := c.code, phase := .done }

/-- 00_scope.md section 7, R28: `respond(r0, r1)`: CAUSE is 0, RES0 and RES1 hold the result, PHASE is DONE. -/
def respond {W : Width} (r0 r1 : Word W) (r : Regs W) : Regs W :=
  { r with cause := causeNone, res0 := r0, res1 := r1, phase := .done }

/-- R123: an iteration that does not finish the division: QUOT and ACC are written, IDX counts up by one, PHASE stays
BUSY. -/
def advance {W : Width} (quot acc : Word W) (r : Regs W) : Regs W :=
  { r with quot := quot, acc := acc, idx := r.idx + 1 }

/-! ## The events that are not EXEC, on the registers -/

/-- R30: ISSUE(op, a, b). -/
def latch {W : Width} (op : Opcode) (a b : Word W) (r : Regs W) : Regs W :=
  { r with op := op, a := a, b := b, quot := 0, acc := 0, idx := 1, phase := .busy }

/-- R30: ISSUE of a request word. -/
def issueWord {W : Width} (word : Wire W) (r : Regs W) : Regs W := latch (reqOp word) (reqA word) (reqB word) r

/-- R32: COLLECT changes no register but PHASE. -/
def release {W : Width} (r : Regs W) : Regs W := { r with phase := .idle }

/-- R37, R180: RESET number `n`: PHASE is IDLE and every other register holds a free value (log entry 4). -/
def scramble (W : Width) (n : Nat) : Regs W :=
  { phase := .idle
    op := Config.freeBits _ .op n
    a := Config.freeBits _ .a n
    b := Config.freeBits _ .b n
    quot := Config.freeBits _ .quot n
    acc := Config.freeBits _ .acc n
    idx := Config.freeBits _ .idx n
    cause := Config.freeBits _ .cause n
    res0 := Config.freeBits _ .res0 n
    res1 := Config.freeBits _ .res1 n }

end Sys2Proof.Machine
end

