-- ==== Sys2Proof/Machine/Operands.lean ====
section
/-! DEFINITION. Operand assembly (R72), the one operand form of the core, and the command in progress (R24). -/

namespace Sys2Proof.Machine

/-- R72: both operand fields are taken whole, as `W`-bit unsigned numbers; `k` is the command's effect on the registers,
given the operands. Nothing but the registers changes. A term whose operands are no `W`-bit numbers is no command of
this core (log entry 6). -/
def withOperands (a b : Nat) (s : State) (k : Word s.width → Word s.width → Regs s.width → Regs s.width) :
    Host.Outcome State Fault Refusal :=
  if FitsWidth s.width a ∧ FitsWidth s.width b then
    .next { s with regs := k (trunc s.width.bits a) (trunc s.width.bits b) s.regs }
  else .refused .operandTooWide

/-- R24, R31: the command that OP, A and B hold. -/
def current {W : Width} (r : Regs W) : Instr := Instr.ofFields r.op r.a.toNat r.b.toNat

end Sys2Proof.Machine
end

