-- ==== Sys2Proof/Machine/BitAt.lean ====
section
/-! DEFINITION. The bit-extractor: BITAT (41_bitat.md). -/

namespace Sys2Proof.Machine

/-- R102: one EXEC of BITAT on the registers; ZERO_OPERAND has priority over INDEX_RANGE (R156). The index is compared
on its full width. -/
def bitatRegs {W : Width} (a b : Word W) (r : Regs W) : Regs W :=
  if a = 0 then raise .zeroOperand r
  else if b = 0 ∨ len a < b.toNat then raise .indexRange r
  else respond (zextBit W.bits (bitat a b.toNat)) 0 r

/-- R102: EXEC of `BITAT value, index`. -/
def execBitat (value index : Nat) (s : State) : Host.Outcome State Fault Refusal :=
  withOperands value index s (fun a b r => bitatRegs a b r)

end Sys2Proof.Machine
end

