-- ==== Sys2Proof/Machine/BitLen.lean ====
section
/-! DEFINITION. The bit-length scanner: BITLEN (40_bitlen.md). -/

namespace Sys2Proof.Machine

/-- R92: one EXEC of BITLEN on the registers: operand 0 raises ZERO_OPERAND (R93), else the result is `len(a)`. -/
def bitlenRegs {W : Width} (a : Word W) (r : Regs W) : Regs W :=
  if a = 0 then raise .zeroOperand r else respond (trunc W.bits (len a)) 0 r

/-- R92: EXEC of `BITLEN n`; the field `b` has no effect (R73). -/
def execBitlen (n unused : Nat) (s : State) : Host.Outcome State Fault Refusal :=
  withOperands n unused s (fun a _ r => bitlenRegs a r)

end Sys2Proof.Machine
end

