-- ==== Sys2Proof/Machine/Extend.lean ====
section
/-! DEFINITION. The message extender: EXTEND (42_extend.md). -/

namespace Sys2Proof.Machine

/-- R110: one EXEC of EXTEND on the registers. It never raises; out of contract the high bits are lost (R113, log
entry 8). -/
def extendRegs {W : Width} (a b : Word W) (r : Regs W) : Regs W := respond (extendWord a b.toNat) 0 r

/-- R110: EXEC of `EXTEND message, degree`. -/
def execExtend (message degree : Nat) (s : State) : Host.Outcome State Fault Refusal :=
  withOperands message degree s (fun a b r => extendRegs a b r)

end Sys2Proof.Machine
end

