-- ==== Sys2Proof/Machine/PolyDiv.lean ====
section
/-! DEFINITION. The GF(2) polynomial divider: POLYDIV (43_polydiv.md). -/

namespace Sys2Proof.Machine

/-- R126: one EXEC of POLYDIV on the registers: the zero-divisor check (R121), one iteration (R123), or the finishing
step (R125). -/
def polydivRegs {W : Width} (a b : Word W) (r : Regs W) : Regs W :=
  if b = 0 then raise .zeroDivisor r
  else if r.idx.toNat ≤ len a then
    advance (divStep a b r.idx.toNat r.quot r.acc).1 (divStep a b r.idx.toNat r.quot r.acc).2 r
  else respond r.quot r.acc r

/-- R120, R126: EXEC of `POLYDIV dividend, divisor`. -/
def execPolydiv (dividend divisor : Nat) (s : State) : Host.Outcome State Fault Refusal :=
  withOperands dividend divisor s (fun a b r => polydivRegs a b r)

end Sys2Proof.Machine
end

