-- ==== Sys2Proof/Machine/Dispatch.lean ====
section
/-! DEFINITION. R31: the effect of one EXEC, chosen by the command. -/

namespace Sys2Proof.Machine

/-- R31: one EXEC of the command `i`. -/
def exec (i : Instr) (s : State) : Host.Outcome State Fault Refusal :=
  match i with
  | .bitlen n unused => Sys2Proof.Machine.execBitlen n unused s
  | .bitat value index => Sys2Proof.Machine.execBitat value index s
  | .extend message degree => Sys2Proof.Machine.execExtend message degree s
  | .polydiv dividend divisor => Sys2Proof.Machine.execPolydiv dividend divisor s

end Sys2Proof.Machine
end

