-- ==== Sys2Proof/Machine/Flags.lean ====
section
/-! DEFINITION. What the host can see of the registers: the outputs `ready` and `valid` (R39), the status CAUSE (R28)
and the response built at COLLECT (R74). The core has no other flag (R28). -/

namespace Sys2Proof.Machine

/-- R39: `ready` is 1 exactly when PHASE = IDLE. -/
def ready {W : Width} (r : Regs W) : Bool := decide (r.phase = .idle)

/-- R39: `valid` is 1 exactly when PHASE = DONE. -/
def valid {W : Width} (r : Regs W) : Bool := decide (r.phase = .done)

/-- R28: the shorthand ERR, `CAUSE != 0`. -/
def err {W : Width} (r : Regs W) : Bool := decide (r.cause ≠ causeNone)

/-- R32, R74, R76: the outcome built from CAUSE, RES0 and RES1; RES0 and RES1 are read only when CAUSE = 0 (R38). -/
def response {W : Width} (r : Regs W) : Response W := Response.ofFields r.cause r.res0 r.res1

/-- R39: everything the host can observe of the core. -/
structure Outputs (W : Width) where
  ready : Bool
  valid : Bool
  /-- The response, offered while `valid` is 1. -/
  rsp : Option (Response W)
deriving DecidableEq, Repr

/-- R39, R80: the outputs; the response is there only while PHASE = DONE. -/
def outputs {W : Width} (r : Regs W) : Outputs W :=
  { ready := ready r, valid := valid r, rsp := if valid r then some (response r) else none }

end Sys2Proof.Machine
end

