-- ==== Sys2Proof/Machine/Events.lean ====
section
/-! DEFINITION. The four events on the whole state, and which of them happens at an instant (R29, R80, R182). -/

namespace Sys2Proof.Machine

/-- R29, R182: the event that happens when the inputs `e` stand at a core with registers `r`. RESET is always enabled
and wins; of the others at most one is enabled, by PHASE. An event that is not enabled does not happen (R185). -/
def eventAt {W : Width} (e : Edge W) (r : Regs W) : Option (Event W) :=
  if e.rst then some .reset
  else match r.phase with
    | .idle => e.req.map .issue
    | .busy => if e.run then some .exec else none
    | .done => if e.rspReady then some .collect else none

/-- R30: ISSUE of a request word. -/
def issue (s : State) (word : Wire s.width) : State := { s with regs := issueWord word s.regs }

/-- R32: COLLECT: the host receives the response and PHASE becomes IDLE. -/
def collect (s : State) : State :=
  { s with regs := release s.regs, received := s.received ++ [response s.regs] }

/-- R180, R181: RESET. A command in progress and a waiting response are gone; what the host has collected, it keeps. -/
def resetEvent (s : State) : State := { s with regs := scramble s.width s.resets, resets := s.resets + 1 }

/-- R29: what an event does. No event leaves the state as it is. -/
def perform (s : State) (e : Option (Event s.width)) : Host.Outcome State Fault Refusal :=
  match e with
  | none => .next s
  | some (.issue word) => .next (issue s word)
  | some .exec => exec (current s.regs) s
  | some .collect => .next (collect s)
  | some .reset => .next (resetEvent s)

/-- What stands at the core's inputs at this instant; a host with nothing more to do sends nothing (R191). -/
def edgeNow (s : State) : Edge s.width := s.inputs.headD Edge.quiet

/-- The state once the host has moved on to its next action. -/
def advanceHost (s : State) : State := { s with inputs := s.inputs.tail }

/-- The event that happens in the state `s`. -/
def eventNow (s : State) : Option (Event s.width) := eventAt (edgeNow s) s.regs

/-- The state in which the command `i` has just been issued and nothing stands at the inputs, whatever PHASE was. -/
def holding (i : Instr) (s : State) : State :=
  { s with
    regs := latch i.opcode (trunc s.width.bits i.fieldA) (trunc s.width.bits i.fieldB) s.regs
    inputs := Edge.quiet :: s.inputs }

end Sys2Proof.Machine
end

