-- ==== Sys2Proof/Machine/Step.lean ====
section
/-! DEFINITION. One step of the machine (R29), and placing a command where the next step runs it. -/

namespace Sys2Proof.Machine

/-- R29: one step: the event that happens at this instant, if any, and the host moves on to its next action. -/
def step (s : State) : Host.Outcome State Fault Refusal := perform (advanceHost s) (eventNow s)

/-- `s` with the request word `w` issued to the core: the core fetches no instruction (R22), and the command that the
next EXEC runs stands in OP, A and B (R24), put there by ISSUE (R30; log entry 9). The bits of `w` at and above
`nbits` are 0. A number that is no request word of this core changes nothing. -/
def State.withFetchWord (s : State) (nbits w : Nat) : State :=
  match decode s.width (w % 2 ^ nbits) with
  | .ok i => holding i s
  | .error _ => s

end Sys2Proof.Machine
end

