-- ==== Sys2Proof/Machine/Poly.lean ====
section
/-! DEFINITION. What the commands compute, as functions of their operands alone (R11): the division as one loop (R126),
the outcome of every command (R155), the number of its EXEC steps (R190), and the GF(2) product (R133), which no
command computes. -/

namespace Sys2Proof.Machine

/-- R126: `n` iterations of the division of `a` by `b`, the first with index `i`, from quotient and accumulator
`quot` and `acc`. -/
def divRun {w : Nat} (a b : BitVec w) : Nat → Nat → BitVec w → BitVec w → BitVec w × BitVec w
  | 0, _, quot, acc => (quot, acc)
  | n + 1, i, quot, acc => divRun a b n (i + 1) (divStep a b i quot acc).1 (divStep a b i quot acc).2

/-- R126: `polydiv(D, V)` as a function from operands to outcome. -/
def polydiv {w : Nat} (dividend divisor : BitVec w) : Except InvalidArgument (BitVec w × BitVec w) :=
  if divisor = 0 then .error .zeroDivisor else .ok (divRun dividend divisor (len dividend) 1 0 0)

/-- R155, R75: the outcome of a command, a function of the command alone (R11). -/
def answer (W : Width) (i : Instr) : Response W :=
  let a : Word W := trunc W.bits i.fieldA
  let b : Word W := trunc W.bits i.fieldB
  match i with
  | .bitlen _ _ => if a = 0 then .failure .zeroOperand else .result (trunc W.bits (len a)) 0
  | .bitat _ _ =>
    if a = 0 then .failure .zeroOperand
    else if b = 0 ∨ len a < b.toNat then .failure .indexRange
    else .result (zextBit W.bits (bitat a b.toNat)) 0
  | .extend _ _ => .result (extendWord a b.toNat) 0
  | .polydiv _ _ =>
    match polydiv a b with
    | .error c => .failure c
    | .ok (quotient, remainder) => .result quotient remainder

/-- R190: the number of EXEC steps of a command, from ISSUE to DONE. -/
def execSteps (W : Width) (i : Instr) : Nat :=
  match i with
  | .bitlen _ _ => 1
  | .bitat _ _ => 1
  | .extend _ _ => 1
  | .polydiv dividend divisor => if divisor = 0 then 1 else len (trunc W.bits dividend) + 1

/-- R133: the XOR of `v << i` over the `i` below `k` with `q[i] = 1`. -/
def gf2mulBelow (q v : Nat) : Nat → Nat
  | 0 => 0
  | k + 1 => gf2mulBelow q v k ^^^ (if q.testBit k then v <<< k else 0)

/-- R133: the product `q ⊗ v` of two polynomials over GF(2), a natural number, never truncated. -/
def gf2mul {w : Nat} (q v : BitVec w) : Nat := gf2mulBelow q.toNat v.toNat w

end Sys2Proof.Machine
end

