-- ==== Sys2Proof/Machine/Run.lean ====
section
/-! DEFINITION. Runs of one core: several EXEC steps of a command, several steps of the machine, and one whole command
as a host performs it (R81, R193). -/

namespace Sys2Proof.Machine

/-- R190: `n` EXEC steps of the command `i`. -/
def execTimes (i : Instr) : Nat → State → Host.Outcome State Fault Refusal
  | 0, s => .next s
  | n + 1, s =>
    match exec i s with
    | .next t => execTimes i n t
    | .fault f => .fault f
    | .refused r => .refused r

/-- `n` steps of the machine. -/
def runSteps : Nat → State → Host.Outcome State Fault Refusal
  | 0, s => .next s
  | n + 1, s =>
    match step s with
    | .next t => runSteps n t
    | .fault f => .fault f
    | .refused r => .refused r

/-- R81, R190: what a host does for one command: offer the request word, leave the core the `W + 1` steps that are
enough for every command, take the response. -/
def commandInputs (W : Width) (word : Wire W) : List (Edge W) :=
  { (Edge.quiet : Edge W) with req := some word } ::
    (List.replicate (W.bits + 1) Edge.quiet ++ [{ (Edge.quiet : Edge W) with rspReady := true }])

/-- R76: a response as the host reads it: the two results as numbers, or the cause. -/
def responseNumbers {W : Width} : Response W → Except InvalidArgument (Nat × Nat)
  | .result res0 res1 => .ok (res0.toNat, res1.toNat)
  | .failure c => .error c

/-- R81: the host issues the command `i`, lets the core finish it and collects the response: the state after that, for
a core whose PHASE is IDLE. -/
def afterCommand (i : Instr) (s : State) : Host.Outcome State Fault Refusal :=
  runSteps (s.width.bits + 3) { s with inputs := commandInputs s.width (encode s.width i) }

end Sys2Proof.Machine
end

