-- ==== Sys2Proof/Machine/Script.lean ====
section
/-! DEFINITION. Scripts of the host (R81, R193) and the three pseudo-commands (R82, R140 to R142). The core knows none
of them; they are sequences of its commands and of host arithmetic. -/

namespace Sys2Proof.Machine

/-- R81: a name of a script; names are numbered (log entry 11). -/
abbrev VarName := Nat

/-- R81: an operand: a numeric literal or a name bound earlier. -/
inductive ScriptOperand where
  | literal (n : Nat)
  | name (x : VarName)
deriving DecidableEq, Repr

/-- R81, R82: the arithmetic of a `host:` line: the subtraction of 1, the XOR, the test for zero (1 if zero, else 0). -/
inductive HostExpr where
  | value (o : ScriptOperand)
  | minusOne (e : HostExpr)
  | xor (e f : HostExpr)
  | isZero (e : HostExpr)
deriving DecidableEq, Repr

/-- R81: the mnemonics of a script. -/
inductive Mnemonic where
  | bitlen
  | bitat
  | extend
  | polydiv
deriving DecidableEq, Repr

/-- R81: what a command line binds. -/
inductive Binding where
  /-- Nothing. -/
  | nothing
  /-- `-> x`: RES0. -/
  | first (x : VarName)
  /-- `-> x, y`: RES0 and RES1. -/
  | both (x y : VarName)
  /-- `-> !x`: the cause. -/
  | cause (x : VarName)
deriving DecidableEq, Repr

/-- R81: a line of a script. -/
inductive ScriptLine where
  | command (m : Mnemonic) (a : ScriptOperand) (b : Option ScriptOperand) (bind : Binding)
  | host (x : VarName) (e : HostExpr)
deriving DecidableEq, Repr

/-- Why a script ends before its last line. It is the script that ends, never the core. -/
inductive ScriptStop where
  /-- An operand is a name that no earlier line bound (R81). -/
  | unboundName (x : VarName)
  /-- BITLEN takes one operand, the others two (R81). -/
  | wrongOperands
  /-- An operand is no `W`-bit number (R72). -/
  | operandTooWide
  /-- A `host:` line subtracts 1 from 0, for which R81 gives no number. -/
  | belowZero
  /-- A command raised and its line does not say `-> !x` (R81). -/
  | failed (c : InvalidArgument)
  /-- The core was not IDLE when the line was to be issued (R81). -/
  | notIdle
  /-- The core gave no response; R190 excludes it. -/
  | noResponse
deriving DecidableEq, Repr

/-- R81: the names bound so far, the newest first. -/
abbrev Bindings := List (VarName × Nat)

/-- The value of a name. -/
def lookup (x : VarName) : Bindings → Option Nat
  | [] => none
  | (y, v) :: rest => if x = y then some v else lookup x rest

/-- R81: the value of an operand. -/
def evalOperand (names : Bindings) : ScriptOperand → Except ScriptStop Nat
  | .literal n => .ok n
  | .name x =>
    match lookup x names with
    | some v => .ok v
    | none => .error (.unboundName x)

/-- R81: the value of the arithmetic of a `host:` line. -/
def evalHost (names : Bindings) : HostExpr → Except ScriptStop Nat
  | .value o => evalOperand names o
  | .minusOne e =>
    match evalHost names e with
    | .ok 0 => .error .belowZero
    | .ok (v + 1) => .ok v
    | .error stop => .error stop
  | .xor e f =>
    match evalHost names e, evalHost names f with
    | .ok u, .ok v => .ok (u ^^^ v)
    | .error stop, _ => .error stop
    | .ok _, .error stop => .error stop
  | .isZero e =>
    match evalHost names e with
    | .ok v => .ok (if v = 0 then 1 else 0)
    | .error stop => .error stop

/-- R81: the command of a line, given the values of its operands; the field `b` of BITLEN is set to 0. -/
def assemble : Mnemonic → Nat → Option Nat → Except ScriptStop Instr
  | .bitlen, a, none => .ok (.bitlen a 0)
  | .bitat, a, some b => .ok (.bitat a b)
  | .extend, a, some b => .ok (.extend a b)
  | .polydiv, a, some b => .ok (.polydiv a b)
  | .bitlen, _, some _ => .error .wrongOperands
  | .bitat, _, none => .error .wrongOperands
  | .extend, _, none => .error .wrongOperands
  | .polydiv, _, none => .error .wrongOperands

/-- R81: the names after a command with the outcome `r`; an unexpected failure stops the script. A line `-> !x` whose
command has a result binds the cause 0 (log entry 11). -/
def bindOutcome (names : Bindings) (bind : Binding) (r : Except InvalidArgument (Nat × Nat)) :
    Except ScriptStop Bindings :=
  match bind, r with
  | .nothing, .ok _ => .ok names
  | .first x, .ok (r0, _) => .ok ((x, r0) :: names)
  | .both x y, .ok (r0, r1) => .ok ((y, r1) :: (x, r0) :: names)
  | .cause x, .ok _ => .ok ((x, causeNone.toNat) :: names)
  | .cause x, .error c => .ok ((x, c.code.toNat) :: names)
  | .nothing, .error c => .error (.failed c)
  | .first _, .error c => .error (.failed c)
  | .both _ _, .error c => .error (.failed c)

/-- R81: one command: issued when PHASE = IDLE, its response collected before the next line. -/
def runCommand (i : Instr) (s : State) : Except ScriptStop (Except InvalidArgument (Nat × Nat) × State) :=
  if s.regs.phase ≠ .idle then .error .notIdle
  else if ¬ i.WellFormed s.width then .error .operandTooWide
  else match afterCommand i s with
    | .next t =>
      match t.received.getLast? with
      | some r => .ok (responseNumbers r, t)
      | none => .error .noResponse
    | .fault _ => .error .noResponse
    | .refused _ => .error .noResponse

/-- The value of the second operand of a line, if it has one. -/
def evalSecond (names : Bindings) : Option ScriptOperand → Except ScriptStop (Option Nat)
  | none => .ok none
  | some o =>
    match evalOperand names o with
    | .ok v => .ok (some v)
    | .error stop => .error stop

/-- R81: the command a line issues. -/
def lineCommand (names : Bindings) (m : Mnemonic) (a : ScriptOperand) (b : Option ScriptOperand) :
    Except ScriptStop Instr :=
  match evalOperand names a, evalSecond names b with
  | .ok u, .ok v => assemble m u v
  | .error stop, _ => .error stop
  | .ok _, .error stop => .error stop

/-- R81: one line of a script. -/
def runLine (line : ScriptLine) (names : Bindings) (s : State) : Except ScriptStop (Bindings × State) :=
  match line with
  | .command m a b bind =>
    match lineCommand names m a b with
    | .error stop => .error stop
    | .ok i =>
      match runCommand i s with
      | .error stop => .error stop
      | .ok (r, t) =>
        match bindOutcome names bind r with
        | .error stop => .error stop
        | .ok names' => .ok (names', t)
  | .host x e =>
    match evalHost names e with
    | .error stop => .error stop
    | .ok v => .ok ((x, v) :: names, s)

/-- R81, R193: a script, line after line; it is over when the last response is collected. -/
def runScript : List ScriptLine → Bindings → State → Except ScriptStop (Bindings × State)
  | [], names, s => .ok (names, s)
  | line :: rest, names, s =>
    match runLine line names s with
    | .ok (names', t) => runScript rest names' t
    | .error stop => .error stop

/-- R82, R141: `DEGREE v -> d`. The name `l` holds the bit length. -/
def degreeLines (v : ScriptOperand) (l d : VarName) : List ScriptLine :=
  [.command .bitlen v none (.first l), .host d (.minusOne (.value (.name l)))]

/-- R82, R140: `CRCGEN m, v -> c`. The names `l`, `d`, `e`, `q` and `r` hold the values of the lines on the way. -/
def crcgenLines (m v : ScriptOperand) (l d e q r c : VarName) : List ScriptLine :=
  degreeLines v l d ++
    [.command .extend m (some (.name d)) (.first e),
     .command .polydiv (.name e) (some v) (.both q r),
     .host c (.xor (.value (.name e)) (.value (.name r)))]

/-- R82, R142: `CRCCHK c, v -> r`. The name `ok` holds 1 if the check succeeds, else 0. -/
def crcchkLines (c v : ScriptOperand) (q r ok : VarName) : List ScriptLine :=
  [.command .polydiv c (some v) (.both q r), .host ok (.isZero (.value (.name r)))]

end Sys2Proof.Machine
end

