-- ==== Sys2Proof/Machine/System.lean ====
section
/-! DEFINITION. Several cores (R13, R59): each is a machine of its own, they share nothing, and their steps may come in
any order. -/

namespace Sys2Proof.Machine

/-- R59: several cores, each with its own host side. -/
abbrev System := List State

/-- R59: one step of the core number `k`; a number that no core has does nothing. -/
def systemStep (k : Nat) (cores : System) : Host.Outcome System Fault Refusal :=
  match cores[k]? with
  | none => .next cores
  | some s =>
    match step s with
    | .next t => .next (cores.set k t)
    | .fault f => .fault f
    | .refused r => .refused r

/-- R59: an interleaving: which core steps, one after the other. -/
def systemRun : List Nat → System → Host.Outcome System Fault Refusal
  | [], cores => .next cores
  | k :: rest, cores =>
    match systemStep k cores with
    | .next cores' => systemRun rest cores'
    | .fault f => .fault f
    | .refused r => .refused r

end Sys2Proof.Machine
end

