-- ==== Sys2Proof/Safety.lean ====
section
/-! DEFINITION. The terms claims use: what the caller owes (R187), a run without a failure (R168), the invariant of the
registers (R24 to R28, R131), and which registers a state's future depends on (R38). -/

namespace Sys2Proof.Machine

/-- R187: the operand preconditions the host owes, for a core of width `W`. -/
def InContract (W : Width) (i : Instr) : Prop :=
  match i with
  | .bitlen n _ => n ≠ 0
  | .bitat value index => value ≠ 0 ∧ 1 ≤ index ∧ index ≤ len (trunc W.bits value)
  | .extend message degree => message * 2 ^ degree < 2 ^ W.bits
  | .polydiv _ divisor => divisor ≠ 0

/-- A response that is a result. -/
def isResult {W : Width} : Response W → Bool
  | .result _ _ => true
  | .failure _ => false

/-- R168: the record, kept by the host and never cleared, that no command so far has raised. -/
def NoFailure (s : State) : Prop := ∀ r ∈ s.received, isResult r = true

/-- R25, R26, R30, R131: the working registers of a command in progress. In a division by a nonzero divisor they hold
what the iterations so far have made of the operands; else they hold what ISSUE put there. -/
def BusyInv {W : Width} (r : Regs W) : Prop :=
  if r.op = 3 ∧ r.b ≠ 0 then
    1 ≤ r.idx.toNat ∧ r.idx.toNat ≤ len r.a + 1 ∧ (r.quot, r.acc) = divRun r.a r.b (r.idx.toNat - 1) 1 0 0
  else r.quot = 0 ∧ r.acc = 0 ∧ r.idx = 1

/-- The invariant of the registers: a command in progress has made the progress its working registers say, and a
finished one has the outcome of its operands (R11). -/
def RegsInv {W : Width} (r : Regs W) : Prop :=
  match r.phase with
  | .idle => True
  | .busy => BusyInv r
  | .done => response r = answer W (current r)

/-- The invariant of the machine. -/
def MachineInv (s : State) : Prop := RegsInv s.regs

/-- R38: two register states that agree on everything a later event can read before it is written. -/
def SameLive {W : Width} (r r' : Regs W) : Prop :=
  match r.phase with
  | .idle => r'.phase = .idle
  | .busy => r'.phase = .busy ∧ r'.op = r.op ∧ r'.a = r.a ∧ r'.b = r.b ∧ r'.quot = r.quot ∧ r'.acc = r.acc ∧
      r'.idx = r.idx
  | .done => r'.phase = .done ∧ response r' = response r

/-- R58: the commands issued in the next `n` steps, in order. -/
def issuedIn : Nat → State → List Instr
  | 0, _ => []
  | n + 1, s =>
    (match eventNow s with
      | some (.issue word) => [decodeWord s.width word]
      | _ => []) ++
    (match step s with
      | .next t => issuedIn n t
      | _ => [])

end Sys2Proof.Machine
end

