-- ==== Sys2Proof/Certificates/Slice0/Obligations.lean ====
section
/-! DEFINITION. The statements for the provers. Each formalises rules of the spec; the docstring names them. -/

open Sys2Proof Sys2Proof.Machine

/-! ## Encoding -/

/-- R70: the request word is `2W + 2` bits long (18, 34, 66 and 130 bits), is the number
`op × 2^(2W) + a × 2^W + b`, and holds the three fields where the rule's table puts them. -/
def Obligations.RequestWordPacksItsFields : Prop :=
  (∀ W : Width, W.wireBits = 2 * W.bits + 2) ∧
  (Width.w8.wireBits, Width.w16.wireBits, Width.w32.wireBits, Width.w64.wireBits) = (18, 34, 66, 130) ∧
  ∀ (W : Width) (i : Instr), i.WellFormed W →
    (encode W i).toNat = i.opcode.toNat * 2 ^ (2 * W.bits) + i.fieldA * 2 ^ W.bits + i.fieldB ∧
    reqOp (encode W i) = i.opcode ∧ (reqA (encode W i)).toNat = i.fieldA ∧ (reqB (encode W i)).toNat = i.fieldB

/-- R77: decoding the request word of a command gives the command back, with both operands at every value. -/
def Obligations.DecodeOfEncode : Prop :=
  ∀ (W : Width) (i : Instr), i.WellFormed W →
    decodeWord W (encode W i) = i ∧ decode W (encode W i).toNat = .ok i

/-- R77: every one of the `2^(2W+2)` request words decodes to a command of the core, and to no other word's. -/
def Obligations.EncodeOfDecode : Prop :=
  ∀ (W : Width) (word : Wire W), (decodeWord W word).WellFormed W ∧ encode W (decodeWord W word) = word ∧
    decode W word.toNat = .ok (decodeWord W word)

/-- R78: a number is refused by the decoder exactly when it has more bits than a request word. -/
def Obligations.DecodeRefusesExactlyLongNumbers : Prop :=
  ∀ (W : Width) (n : Nat), decode W n = .error .tooLong ↔ 2 ^ (2 * W.bits + 2) ≤ n

/-- R79, R71: a word matches the row of an opcode, `word & mask = match`, exactly when its command has that opcode; so
every word matches one row. -/
def Obligations.WordMatchesExactlyItsRow : Prop :=
  ∀ (W : Width) (word : Wire W) (op : Opcode),
    (word &&& rowMask W = rowMatch W op ↔ (decodeWord W word).opcode = op)

/-- R74, R76: a response word has the layout of the rule's table, and the host reads the outcome back from it, whatever
bits stand in the result fields of a failed response. -/
def Obligations.ResponseWordRoundTrip : Prop :=
  ∀ (W : Width) (r : Response W) (x y : Word W),
    decodeResponse (encodeResponse r x y) = r ∧
    reqOp (encodeResponse r x y) = r.cause ∧
    ∀ r0 r1 : Word W, r = .result r0 r1 →
      (encodeResponse r x y).toNat = r0.toNat * 2 ^ W.bits + r1.toNat

/-- R79 and 95_test_vectors.md sections 1.1 and 2.6: words written out from the spec, one for each command. -/
def Obligations.SpecWordsDecode : Prop :=
  decodeTableWord 34 0x0000D0000 = some (.bitlen 0x000D 0) ∧
  decodeTableWord 34 0x1ABCD0007 = some (.bitat 0xABCD 7) ∧
  decodeTableWord 34 0x2000B0004 = some (.extend 0x000B 4) ∧
  decodeTableWord 34 0x304D0000D = some (.polydiv 0x04D0 0x000D) ∧
  decodeTableWord 34 0x3FFFFFFFF = some (.polydiv 0xFFFF 0xFFFF) ∧
  decode .w8 0x3FF0B = .ok (.polydiv 0xFF 0x0B)

/-- R6: the counter has `len(W + 1)` bits, 4, 5, 6 and 7 for the four widths, enough for every value up to `W + 1`. -/
def Obligations.CounterWidth : Prop :=
  (Width.w8.cw, Width.w16.cw, Width.w32.cw, Width.w64.cw) = (4, 5, 6, 7) ∧
  ∀ W : Width, W.cw = len (trunc 8 (W.bits + 1)) ∧ W.bits + 1 < 2 ^ W.cw

/-- R5, U15: the legal widths are 8, 16, 32 and 64: each is accepted, as the configuration with that many bits, and any
other number is refused by name (that a refusal is the error `illegalWidth` is the model's spelling, log entry 2). -/
def Obligations.LegalWidths : Prop :=
  ∀ n : Nat,
    ((∃ W : Width, Width.ofBits n = .ok W) ↔ (n = 8 ∨ n = 16 ∨ n = 32 ∨ n = 64)) ∧
    (∀ W : Width, Width.ofBits n = .ok W → W.bits = n) ∧
    (Width.ofBits n = .error (.illegalWidth n) ↔ ¬ (n = 8 ∨ n = 16 ∨ n = 32 ∨ n = 64))

/-! ## The scanner and the extractor -/

/-- R90: `len` is the number of significant bits, in the three forms of the rule, and lies between 0 and `W`. -/
def Obligations.LenCountsSignificantBits : Prop :=
  ∀ (w : Nat) (v : BitVec w),
    (v = 0 → len v = 0) ∧
    (v ≠ 0 → len v = Nat.log2 v.toNat + 1 ∧
      (∃ i, len v = 1 + i ∧ v.getLsbD i = true ∧ ∀ j, i < j → v.getLsbD j = false)) ∧
    v.toNat < 2 ^ len v ∧ (∀ k, v.toNat < 2 ^ k → len v ≤ k) ∧ len v ≤ w

/-- R95: the laws of `len`. -/
def Obligations.LenLaws : Prop :=
  ∀ w : Nat, 0 < w →
    (∀ k, k ≤ w - 1 → len (trunc w (2 ^ k)) = k + 1) ∧
    (∀ k, 1 ≤ k → k ≤ w → len (trunc w (2 ^ k - 1)) = k) ∧
    (∀ m n : BitVec w, m.toNat ≤ n.toNat → len m ≤ len n) ∧
    (∀ n : BitVec w, len n = w ↔ n.getLsbD (w - 1) = true) ∧
    (∀ n : BitVec w, 1 ≤ n.toNat → 2 ^ (len n - 1) ≤ n.toNat ∧ n.toNat < 2 ^ len n) ∧
    (∀ n : BitVec w, 1 ≤ n.toNat → 2 * n.toNat < 2 ^ w → len (n <<< 1) = len n + 1) ∧
    (∀ x y : BitVec w, len x = len y → 1 ≤ len x → len (x ^^^ y) < len x)

/-- R100: inside `1 <= i <= len(v)` the extracted bit is bit number `len(v) - i`, and the shift amount is between 0 and
`W - 1`. Outside that range the model's value is free (log entry 5) and this statement says nothing. -/
def Obligations.BitatIsTheIndexedBit : Prop :=
  ∀ (w : Nat) (v : BitVec w) (i : Nat), 1 ≤ i → i ≤ len v →
    (bitat v i).toNat = (v.toNat / 2 ^ (len v - i)) % 2 ∧ bitat v i = v.getLsbD (len v - i) ∧ len v - i ≤ w - 1

/-- R104: the first bit of the significant span is 1, the last is the lowest bit, and the bits read in order rebuild the
value. -/
def Obligations.BitatLaws : Prop :=
  ∀ (w : Nat) (v : BitVec w), v ≠ 0 →
    bitat v 1 = true ∧ (bitat v (len v)).toNat = v.toNat % 2 ∧
    v.toNat = ∑ i ∈ Finset.Icc 1 (len v), (bitat v i).toNat * 2 ^ (len v - i)

/-! ## One EXEC of each command: it completes, and this is its whole effect -/

/-- R92: EXEC of BITLEN, for every operand: 0 raises ZERO_OPERAND, else the result is the bit length; `b` has no effect;
nothing else changes. With the encoding and the worked example. -/
def Obligations.BitlenCompletes : Prop :=
  (∀ (s : State) (n b : Nat), n < 2 ^ s.width.bits → b < 2 ^ s.width.bits →
    exec (.bitlen n b) s = .next
      { s with regs :=
        if n = 0 then { s.regs with cause := 1, phase := .done }
        else { s.regs with
          cause := 0, res0 := trunc s.width.bits (len (trunc s.width.bits n)), res1 := 0, phase := .done } } ∧
    (n ≠ 0 → 1 ≤ (trunc s.width.bits (len (trunc s.width.bits n))).toNat ∧
      (trunc s.width.bits (len (trunc s.width.bits n))).toNat = len (trunc s.width.bits n) ∧
      len (trunc s.width.bits n) ≤ s.width.bits) ∧
    reqOp (encode s.width (.bitlen n b)) = 0b00) ∧
  encode .w16 (.bitlen 0b1101 0) = 0x0000D0000#34 ∧
  encodeResponse (answer .w16 (.bitlen 0b1101 0)) 0 0 = 0x000040000#34

/-- R102: EXEC of BITAT, for every operand: value 0 raises ZERO_OPERAND, an index outside `1 .. len(value)` raises
INDEX_RANGE, else the result is the bit; nothing else changes. With the encoding and the worked example. -/
def Obligations.BitatCompletes : Prop :=
  (∀ (s : State) (v i : Nat), v < 2 ^ s.width.bits → i < 2 ^ s.width.bits →
    exec (.bitat v i) s = .next
      { s with regs :=
        if v = 0 then { s.regs with cause := 1, phase := .done }
        else if i = 0 ∨ len (trunc s.width.bits v) < i then { s.regs with cause := 3, phase := .done }
        else { s.regs with
          cause := 0, res0 := if (trunc s.width.bits v).getLsbD (len (trunc s.width.bits v) - i) then 1 else 0,
          res1 := 0, phase := .done } } ∧
    reqOp (encode s.width (.bitat v i)) = 0b01) ∧
  encode .w16 (.bitat 0b1101 3) = 0x1000D0003#34 ∧
  encodeResponse (answer .w16 (.bitat 0b1101 3)) 0 0 = 0x000000000#34

/-- R110: EXEC of EXTEND, for every operand: the result is `(message × 2^degree) mod 2^W`, which is 0 for a degree of
`W` or more; it never raises; nothing else changes. With the encoding and the worked example. -/
def Obligations.ExtendCompletes : Prop :=
  (∀ (s : State) (m d : Nat), m < 2 ^ s.width.bits → d < 2 ^ s.width.bits →
    (∃ res : Word s.width, res.toNat = (m * 2 ^ d) % 2 ^ s.width.bits ∧ (s.width.bits ≤ d → res = 0) ∧
      exec (.extend m d) s = .next
        { s with regs := { s.regs with cause := 0, res0 := res, res1 := 0, phase := .done } }) ∧
    reqOp (encode s.width (.extend m d)) = 0b10) ∧
  encode .w16 (.extend 0b10011010 3) = 0x2009A0003#34 ∧
  encodeResponse (answer .w16 (.extend 0b10011010 3)) 0 0 = 0x004D00000#34

/-- R121: POLYDIV with a zero divisor raises ZERO_DIVISOR at whatever EXEC step, whatever the dividend, with no
iteration and no result; nothing but CAUSE and PHASE changes. -/
def Obligations.PolydivRejectsZeroDivisor : Prop :=
  ∀ (s : State) (d : Nat), d < 2 ^ s.width.bits →
    exec (.polydiv d 0) s = .next { s with regs := { s.regs with cause := 2, phase := .done } }

/-- R123: one iteration of POLYDIV, written out: steps b, c and d of the algorithm on QUOT and ACC, IDX counts up by
one, PHASE and everything else stay; and the two other forms of the test `fits`, for an accumulator shorter than the
divisor (which R131 says it always is). `1 <= IDX` is the domain of `bitat` (R100). -/
def Obligations.PolydivIterates : Prop :=
  ∀ (s : State) (d v : Nat), d < 2 ^ s.width.bits → v < 2 ^ s.width.bits → v ≠ 0 →
    1 ≤ s.regs.idx.toNat → s.regs.idx.toNat ≤ len (trunc s.width.bits d) →
    ∃ acc1 : Word s.width,
      acc1.toNat = (2 * s.regs.acc.toNat) % 2 ^ s.width.bits +
        ((trunc s.width.bits d).getLsbD (len (trunc s.width.bits d) - s.regs.idx.toNat)).toNat ∧
      exec (.polydiv d v) s = .next
        { s with regs :=
          if (len (trunc s.width.bits v) ≤ len acc1) then
            { s.regs with
              quot := trunc s.width.bits (2 * s.regs.quot.toNat + 1), acc := acc1 ^^^ trunc s.width.bits v,
              idx := s.regs.idx + 1 }
          else
            { s.regs with
              quot := trunc s.width.bits (2 * s.regs.quot.toNat), acc := acc1, idx := s.regs.idx + 1 } } ∧
      (acc1 = 0 → ¬ len (trunc s.width.bits v) ≤ len acc1) ∧
      (len s.regs.acc < len (trunc s.width.bits v) →
        (len (trunc s.width.bits v) ≤ len acc1 ↔ len acc1 = len (trunc s.width.bits v)) ∧
        (len (trunc s.width.bits v) ≤ len acc1 ↔ acc1.getLsbD (len (trunc s.width.bits v) - 1) = true))

/-- R125: the finishing step of POLYDIV: the remainder is the final value of ACC and the quotient that of QUOT. -/
def Obligations.PolydivFinishes : Prop :=
  ∀ (s : State) (d v : Nat), d < 2 ^ s.width.bits → v < 2 ^ s.width.bits → v ≠ 0 →
    len (trunc s.width.bits d) < s.regs.idx.toNat →
    exec (.polydiv d v) s = .next
      { s with regs := { s.regs with cause := 0, res0 := s.regs.quot, res1 := s.regs.acc, phase := .done } }

/-- R158, R157: a command that fails does so at whatever EXEC step it makes, the first among them: CAUSE is the code,
PHASE is DONE, and no other register, no response and nothing of the host's side is written. -/
def Obligations.RaiseWritesCauseAndPhaseOnly : Prop :=
  ∀ (s : State) (i : Instr) (c : InvalidArgument), i.WellFormed s.width → answer s.width i = .failure c →
    exec i s = .next { s with regs := { s.regs with cause := c.code, phase := .done } }

/-- R150: the codes of the causes are 1, 2 and 3, all different from NONE, and are read back from the response. -/
def Obligations.CauseCodes : Prop :=
  InvalidArgument.zeroOperand.code = 1 ∧ InvalidArgument.zeroDivisor.code = 2 ∧ InvalidArgument.indexRange.code = 3 ∧
  causeNone = 0 ∧ (∀ c : InvalidArgument, InvalidArgument.ofCode c.code = some c) ∧
  ∀ k : BitVec 2, InvalidArgument.ofCode k = none ↔ k = causeNone

/-- R155: the complete list of (command, operands) to outcome. -/
def Obligations.OutcomeTable : Prop :=
  ∀ (W : Width) (a b : Nat), a < 2 ^ W.bits → b < 2 ^ W.bits →
    (a = 0 → answer W (.bitlen a b) = .failure .zeroOperand) ∧
    (a ≠ 0 → ∃ x y, answer W (.bitlen a b) = .result x y) ∧
    (a = 0 → answer W (.bitat a b) = .failure .zeroOperand) ∧
    (a ≠ 0 → b = 0 → answer W (.bitat a b) = .failure .indexRange) ∧
    (a ≠ 0 → len (trunc W.bits a) < b → answer W (.bitat a b) = .failure .indexRange) ∧
    (a ≠ 0 → 1 ≤ b → b ≤ len (trunc W.bits a) → ∃ x y, answer W (.bitat a b) = .result x y) ∧
    (∃ x y, answer W (.extend a b) = .result x y) ∧
    (b = 0 → answer W (.polydiv a b) = .failure .zeroDivisor) ∧
    (b ≠ 0 → ∃ x y, answer W (.polydiv a b) = .result x y)

/-- R24, R28, R158: the frame of one EXEC, for all four commands: only the registers change; OP, A and B never do; the
step either ends the command, and then QUOT, ACC and IDX stay, and RES0 and RES1 stay if it raises; or it is an
iteration of POLYDIV, and then PHASE, CAUSE, RES0 and RES1 stay and IDX counts up by one. -/
def Obligations.ExecFrame : Prop :=
  ∀ (s t : State) (i : Instr), exec i s = .next t →
    ∃ r : Regs s.width, t = { s with regs := r } ∧
      r.op = s.regs.op ∧ r.a = s.regs.a ∧ r.b = s.regs.b ∧
      ((r.phase = .done ∧ r.quot = s.regs.quot ∧ r.acc = s.regs.acc ∧ r.idx = s.regs.idx ∧
          (r.cause ≠ 0 → r.res0 = s.regs.res0 ∧ r.res1 = s.regs.res1)) ∨
        ((∃ d v, i = .polydiv d v) ∧ r.phase = s.regs.phase ∧ r.cause = s.regs.cause ∧ r.res0 = s.regs.res0 ∧
          r.res1 = s.regs.res1 ∧ r.idx = s.regs.idx + 1))

/-- R77, R72, R168: one EXEC answers a state for every command of the core, and is refused exactly for a term with an
operand that is no `W`-bit number (the model's own refusal, log entry 6); it never faults. -/
def Obligations.ExecAnswersEveryCommand : Prop :=
  ∀ (s : State) (i : Instr),
    ((∃ t, exec i s = .next t) ↔ i.WellFormed s.width) ∧
    (exec i s = .refused .operandTooWide ↔ ¬ i.WellFormed s.width) ∧
    (∀ f, exec i s ≠ .fault f)

/-! ## What EXTEND and POLYDIV compute -/

/-- R111: in contract EXTEND is the exact product by `2^degree`; the two forms of the contract agree. -/
def Obligations.ExtendExactInContract : Prop :=
  ∀ (w : Nat) (m : BitVec w) (d : Nat),
    (m.toNat * 2 ^ d < 2 ^ w ↔ (m = 0 ∨ len m + d ≤ w)) ∧
    (m.toNat * 2 ^ d < 2 ^ w → (extendWord m d).toNat = m.toNat * 2 ^ d)

/-- R114: the laws of EXTEND. -/
def Obligations.ExtendLaws : Prop :=
  ∀ (w : Nat) (m : BitVec w),
    extendWord m 0 = m ∧ (∀ d, extendWord (0 : BitVec w) d = 0) ∧
    (∀ d, m.toNat * 2 ^ d < 2 ^ w → m ≠ 0 →
      len (extendWord m d) = len m + d ∧ (∀ j, j < d → (extendWord m d).getLsbD j = false)) ∧
    (∀ (d : Nat) (r : BitVec w), m.toNat * 2 ^ d < 2 ^ w → r.toNat < 2 ^ d →
      extendWord m d ^^^ r = extendWord m d ||| r ∧
      (extendWord m d ^^^ r).toNat = (extendWord m d).toNat + r.toNat) ∧
    (∀ d1 d2, m.toNat * 2 ^ (d1 + d2) < 2 ^ w →
      extendWord (extendWord m d1) d2 = extendWord m (d1 + d2))

/-- R133: the product over GF(2), by its bits, and its bound. -/
def Obligations.ProductBits : Prop :=
  ∀ (w : Nat) (q v : BitVec w), 0 < w →
    gf2mul q v < 2 ^ (2 * w - 1) ∧
    ∀ k, (gf2mul q v).testBit k =
      (List.range (k + 1)).foldl (fun x i => Bool.xor x (q.getLsbD i && v.getLsbD (k - i))) false

/-- R127: the division identity `D = (Q ⊗ V) ^ R`, with the untruncated product, for every dividend and every nonzero
divisor; and the loop invariant: after the iteration with index `i` the first `i` bits of the dividend are the quotient
so far times the divisor, plus the accumulator. -/
def Obligations.DivisionIdentity : Prop :=
  ∀ (w : Nat) (d v : BitVec w), v ≠ 0 →
    (∃ q r : BitVec w, polydiv d v = .ok (q, r) ∧ d.toNat = gf2mul q v ^^^ r.toNat) ∧
    ∀ i, i ≤ len d →
      d.toNat / 2 ^ (len d - i) = gf2mul (divRun d v i 1 0 0).1 v ^^^ (divRun d v i 1 0 0).2.toNat

/-- R129: the remainder is shorter than the divisor, at the end and after every iteration, and so is ACC in every state
of the machine's invariant that has such a division in progress; the divisor 1 leaves quotient `D` and remainder 0. -/
def Obligations.RemainderShorterThanDivisor : Prop :=
  (∀ (w : Nat) (d v : BitVec w), v ≠ 0 →
    (∀ n, n ≤ len d → len (divRun d v n 1 0 0).2 < len v) ∧
    (∀ q r, polydiv d v = .ok (q, r) → len r < len v ∧ (r = 0 ∨ len r < len v)) ∧
    (v = 1 → polydiv d v = .ok (d, 0))) ∧
  ∀ s : State, MachineInv s → s.regs.phase = .busy → s.regs.op = 3 → s.regs.b ≠ 0 → len s.regs.acc < len s.regs.b

/-- R131: before the iteration with index `i` the quotient is below `2^(i-1)` and the accumulator shorter than the
divisor, so that no shift of R123 loses a bit; an iteration that fits clears the top bit again. -/
def Obligations.DivisionNeverOverflows : Prop :=
  ∀ (w : Nat) (d v : BitVec w), v ≠ 0 → ∀ i, 1 ≤ i → i ≤ len d →
    (divRun d v (i - 1) 1 0 0).1.toNat < 2 ^ (i - 1) ∧
    2 * (divRun d v (i - 1) 1 0 0).1.toNat + 1 < 2 ^ w ∧
    len (divRun d v (i - 1) 1 0 0).2 ≤ len v - 1 ∧ len v ≤ w ∧
    2 * (divRun d v (i - 1) 1 0 0).2.toNat + (bitat d i).toNat < 2 ^ len v ∧
    (bringDown (divRun d v (i - 1) 1 0 0).2 (bitat d i)).toNat =
      2 * (divRun d v (i - 1) 1 0 0).2.toNat + (bitat d i).toNat ∧
    len (bringDown (divRun d v (i - 1) 1 0 0).2 (bitat d i)) ≤ len v ∧
    (fits v (bringDown (divRun d v (i - 1) 1 0 0).2 (bitat d i)) = true →
      len (bringDown (divRun d v (i - 1) 1 0 0).2 (bitat d i)) = len v ∧
      len (bringDown (divRun d v (i - 1) 1 0 0).2 (bitat d i) ^^^ v) ≤ len v - 1) ∧
    (fits v (bringDown (divRun d v (i - 1) 1 0 0).2 (bitat d i)) = false →
      len (bringDown (divRun d v (i - 1) 1 0 0).2 (bitat d i)) < len v)

/-- R132: there is exactly one pair with the division identity and the remainder bound, quotient and remainder are that
pair, and the facts derived from it. -/
def Obligations.QuotientAndRemainderUnique : Prop :=
  ∀ (w : Nat) (d v : BitVec w), v ≠ 0 →
    (∃! p : BitVec w × BitVec w, d.toNat = gf2mul p.1 v ^^^ p.2.toNat ∧ len p.2 < len v) ∧
    (∀ q r : BitVec w, polydiv d v = .ok (q, r) ↔ (d.toNat = gf2mul q v ^^^ r.toNat ∧ len r < len v)) ∧
    (len d < len v → polydiv d v = .ok (0, d)) ∧
    (d = v → polydiv d v = .ok (1, 0)) ∧
    (d ≠ 0 → len v ≤ len d → ∀ q r, polydiv d v = .ok (q, r) → len q = len d - len v + 1) ∧
    (∀ (d' q r q' r' : BitVec w), polydiv d v = .ok (q, r) → polydiv d' v = .ok (q', r') →
      ∃ q'', polydiv (d ^^^ d') v = .ok (q'', r ^^^ r'))

/-- R128: a zero dividend is no error: one EXEC step from ISSUE gives quotient 0 and remainder 0. -/
def Obligations.ZeroDividendGivesZero : Prop :=
  ∀ (s : State) (v : Nat), v < 2 ^ s.width.bits → v ≠ 0 →
    s.regs.quot = 0 → s.regs.acc = 0 → s.regs.idx = 1 →
    exec (.polydiv 0 v) s = .next
      { s with regs := { s.regs with cause := 0, res0 := 0, res1 := 0, phase := .done } }

/-! ## Commands from ISSUE to DONE -/

/-- R124, R122: in a division by a nonzero divisor, after `k` iterations IDX is `k + 1`, QUOT and ACC are those of the
loop, and the command is still in progress; so IDX takes each value from 1 to `len(A)` once and is `len(A) + 1` at the
finishing step. -/
def Obligations.PolydivWorkingRegisters : Prop :=
  ∀ (s : State) (d v : Nat), d < 2 ^ s.width.bits → v < 2 ^ s.width.bits → v ≠ 0 →
    s.regs.quot = 0 → s.regs.acc = 0 → s.regs.idx = 1 → ∀ k, k ≤ len (trunc s.width.bits d) →
    ∃ x : Counter s.width, x.toNat = k + 1 ∧
      execTimes (.polydiv d v) k s = .next
        { s with regs := { s.regs with
          quot := (divRun (trunc s.width.bits d) (trunc s.width.bits v) k 1 0 0).1
          acc := (divRun (trunc s.width.bits d) (trunc s.width.bits v) k 1 0 0).2
          idx := x } }

/-- R190, R130, R134: from ISSUE every command reaches DONE after its number of EXEC steps (1, or `len(dividend) + 1`
for a division by a nonzero divisor; at most `W + 1`), not before, with the outcome that its operands alone determine;
nothing but the registers changes, and OP, A and B stay. -/
def Obligations.EveryCommandReachesItsAnswer : Prop :=
  ∀ (s : State) (i : Instr), i.WellFormed s.width → s.regs.phase = .busy →
    s.regs.quot = 0 → s.regs.acc = 0 → s.regs.idx = 1 →
    1 ≤ execSteps s.width i ∧ execSteps s.width i ≤ s.width.bits + 1 ∧
    (∀ k, k < execSteps s.width i → ∃ r : Regs s.width, execTimes i k s = .next { s with regs := r } ∧
      r.phase = .busy) ∧
    ∃ r : Regs s.width, execTimes i (execSteps s.width i) s = .next { s with regs := r } ∧
      r.phase = .done ∧ response r = answer s.width i ∧
      r.op = s.regs.op ∧ r.a = s.regs.a ∧ r.b = s.regs.b

/-! ## Events and steps -/

/-- R31: while PHASE = BUSY, with no RESET and the core making its step, the machine's step is one EXEC of the command in
OP, A and B, on the state with the host moved on; and after ISSUE that command is the one the request word decodes
to. That the host's list says at which instants the core makes its step (the flag `run`) is the model's choice (log
entry 3). -/
def Obligations.StepRunsTheDecodedCommand : Prop :=
  (∀ s : State, s.regs.phase = .busy → (edgeNow s).rst = false → (edgeNow s).run = true →
    step s = exec (current s.regs) { s with inputs := s.inputs.tail }) ∧
  ∀ (W : Width) (word : Wire W) (r : Regs W), current (issueWord word r) = decodeWord W word

/-- The model's own convention for placing a command (log entry 9), resting on R24 and R30: the step of
`withFetchWord` is one EXEC of the command that the word decodes to, just issued. -/
def Obligations.PlacedWordRunsNext : Prop :=
  ∀ (s : State) (nbits w : Nat) (i : Instr), decode s.width (w % 2 ^ nbits) = .ok i →
    step (s.withFetchWord nbits w) = exec i { s with regs := { s.regs with
      op := i.opcode, a := trunc s.width.bits i.fieldA, b := trunc s.width.bits i.fieldB,
      quot := 0, acc := 0, idx := 1, phase := .busy } }

/-- R30: ISSUE, as a step of the machine: a request offered to an IDLE core is accepted; OP, A and B are the fields of
the word, QUOT, ACC and IDX are 0, 0 and 1, PHASE is BUSY; CAUSE, RES0 and RES1 stay. -/
def Obligations.StepIssues : Prop :=
  ∀ (s : State) (word : Wire s.width), s.regs.phase = .idle → (edgeNow s).rst = false →
    (edgeNow s).req = some word →
    step s = .next
      { s with
        regs := { s.regs with
          op := reqOp word, a := reqA word, b := reqB word, quot := 0, acc := 0, idx := 1, phase := .busy }
        inputs := s.inputs.tail }

/-- R32: COLLECT, as a step of the machine: the host receives the response built from CAUSE, RES0 and RES1, and no
register changes but PHASE, which is IDLE. -/
def Obligations.StepCollects : Prop :=
  ∀ s : State, s.regs.phase = .done → (edgeNow s).rst = false → (edgeNow s).rspReady = true →
    step s = .next
      { s with
        regs := { s.regs with phase := .idle }
        inputs := s.inputs.tail
        received := s.received ++ [Response.ofFields s.regs.cause s.regs.res0 s.regs.res1] }

/-- R180, R181, R182: RESET is enabled in every phase and wins: PHASE is IDLE, `ready = 1` and `valid = 0`, no request is
accepted and no response handed over, whatever else stands at the inputs. Of the other registers nothing is said:
they hold free values (log entry 4). -/
def Obligations.ResetWins : Prop :=
  ∀ s : State, (edgeNow s).rst = true →
    ∃ r : Regs s.width, step s = .next { s with regs := r, inputs := s.inputs.tail, resets := s.resets + 1 } ∧
      r.phase = .idle ∧ ready r = true ∧ valid r = false

/-- R29, R185, R186: an event that is not enabled does not happen. An IDLE core does nothing without a request, and a
response taken then is none; a BUSY core accepts no request; a DONE core keeps every register until COLLECT.
The second clause is the model's choice and no such event: while PHASE = BUSY, EXEC is enabled, but R191 leaves open
when the core performs it, and at an instant whose flag `run` is false it does not (log entry 3). -/
def Obligations.DisabledEventsDoNothing : Prop :=
  ∀ s : State, (edgeNow s).rst = false →
    (s.regs.phase = .idle → (edgeNow s).req = none → step s = .next { s with inputs := s.inputs.tail }) ∧
    (s.regs.phase = .busy → (edgeNow s).run = false → step s = .next { s with inputs := s.inputs.tail }) ∧
    (s.regs.phase = .done → (edgeNow s).rspReady = false → step s = .next { s with inputs := s.inputs.tail }) ∧
    (∀ (x : Option (Wire s.width)) (y : Bool), s.regs.phase = .busy →
      step { s with inputs := { edgeNow s with req := x, rspReady := y } :: s.inputs.tail } = step s) ∧
    (∀ (x : Option (Wire s.width)) (y : Bool), s.regs.phase = .done →
      step { s with inputs := { edgeNow s with req := x, run := y } :: s.inputs.tail } = step s)

/-- R168, R5, R20: the machine never stops: every step answers a state, of a core of the same width. -/
def Obligations.StepAlwaysAnswersAState : Prop :=
  ∀ s : State, ∃ (r : Regs s.width) (ins : List (Edge s.width)) (got : List (Response s.width)) (n : Nat),
    step s = .next { width := s.width, regs := r, inputs := ins, received := got, resets := n } ∧
    ins = s.inputs.tail ∧ s.received <+: got

/-- R23: the only moves of PHASE, with the event that makes each. With no event nothing moves, and a DONE core holds its
outcome. An EXEC leaves PHASE at BUSY only if it is an iteration of POLYDIV that does not finish the command: OP is 3,
the divisor B is not 0 and IDX has not passed `len(A)`; every other EXEC finishes. -/
def Obligations.PhaseMoves : Prop :=
  ∀ s t : State, step s = .next t →
    (eventNow s = none ∧ t = { s with inputs := s.inputs.tail }) ∨
    (s.regs.phase = .idle ∧ t.regs.phase = .busy ∧ ∃ word, eventNow s = some (.issue word)) ∨
    (s.regs.phase = .busy ∧ t.regs.phase = .busy ∧ eventNow s = some .exec ∧
      s.regs.op = 3 ∧ s.regs.b ≠ 0 ∧ s.regs.idx.toNat ≤ len s.regs.a) ∨
    (s.regs.phase = .busy ∧ t.regs.phase = .done ∧ eventNow s = some .exec ∧
      ¬ (s.regs.op = 3 ∧ s.regs.b ≠ 0 ∧ s.regs.idx.toNat ≤ len s.regs.a)) ∨
    (s.regs.phase = .done ∧ t.regs.phase = .idle ∧ eventNow s = some .collect) ∨
    (t.regs.phase = .idle ∧ eventNow s = some .reset)

/-- R24, R22: OP, A and B are written by ISSUE alone (RESET leaves them unspecified): they do not change while PHASE is
BUSY or DONE. IDX moves only by 1, in a BUSY step. -/
def Obligations.LatchesHeldDuringACommand : Prop :=
  ∀ s : State, s.regs.phase ≠ .idle → eventNow s ≠ some .reset →
    ∃ (r : Regs s.width) (got : List (Response s.width)),
      step s = .next { s with regs := r, inputs := s.inputs.tail, received := got } ∧
      r.op = s.regs.op ∧ r.a = s.regs.a ∧ r.b = s.regs.b ∧
      (r.idx = s.regs.idx ∨ (s.regs.phase = .busy ∧ r.idx = s.regs.idx + 1))

/-- R28: CAUSE, RES0 and RES1 are written only by the EXEC step that moves PHASE to DONE, and RES0 and RES1 only if it
has a result; ISSUE and COLLECT write none of the three. -/
def Obligations.StatusWrittenOnlyAtTheEnd : Prop :=
  ∀ s : State, eventNow s ≠ some .reset →
    ∃ (r : Regs s.width) (got : List (Response s.width)),
      step s = .next { s with regs := r, inputs := s.inputs.tail, received := got } ∧
      ((r.cause = s.regs.cause ∧ r.res0 = s.regs.res0 ∧ r.res1 = s.regs.res1) ∨
        (eventNow s = some .exec ∧ r.phase = .done ∧
          (r.cause ≠ 0 → r.res0 = s.regs.res0 ∧ r.res1 = s.regs.res1)))

/-- R39, R28: `ready` is 1 exactly when PHASE = IDLE, `valid` exactly when PHASE = DONE; the response stands at the
outputs exactly while `valid` is 1, and it is a failure exactly when CAUSE is not 0. -/
def Obligations.OutputsFollowPhase : Prop :=
  ∀ (W : Width) (r : Regs W),
    (ready r = true ↔ r.phase = .idle) ∧ (valid r = true ↔ r.phase = .done) ∧
    (outputs r).ready = ready r ∧ (outputs r).valid = valid r ∧
    ((outputs r).rsp = if r.phase = .done then some (response r) else none) ∧
    ((∃ c, response r = .failure c) ↔ r.cause ≠ 0) ∧
    (r.cause = 0 → response r = .result r.res0 r.res1)

/-- R37, R183: the state a run starts from: PHASE is IDLE, `ready = 1` and `valid = 0`, for every width. -/
def Obligations.RunStartsIdle : Prop :=
  ∀ W : Width, (State.resetAt W).width = W ∧ (State.resetAt W).regs.phase = .idle ∧
    (outputs (State.resetAt W).regs) = { ready := true, valid := false, rsp := none }

/-! ## Invariants and whole runs -/

/-- The invariant holds in the state a run starts from (R183). -/
def Obligations.InvAtReset : Prop := ∀ W : Width, MachineInv (State.resetAt W)

/-- R25, R26, R131, R11: every step keeps the invariant: the working registers of a division in progress are those of
the loop after IDX - 1 iterations, with IDX from 1 to `len(A) + 1`; those of another command are as ISSUE left them;
and a finished command holds the outcome of its own operands. -/
def Obligations.StepKeepsInv : Prop :=
  ∀ s t : State, MachineInv s → step s = .next t → MachineInv t

/-- R191, R190: a command in progress is finished after finitely many steps if the host does not reset, however the
host's actions delay the core. The bound is the model's (log entry 3): it counts the model's own steps, of which each
instant of the host's list is one, whether the core performs an EXEC then or not (the flag `run`); after that list the
core performs one at every step, so that the at most `W + 1` EXEC steps of R190 are over `W + 1` steps later. -/
def Obligations.BusyCoreReachesDone : Prop :=
  ∀ s : State, MachineInv s → s.regs.phase = .busy → (∀ e ∈ s.inputs, e.rst = false) →
    ∃ (n : Nat) (t : State), n ≤ s.inputs.length + s.width.bits + 1 ∧ runSteps n s = .next t ∧ t.regs.phase = .done

/-- R11, R56, R189: one command as a host performs it, from any IDLE state whatever its other registers hold: the host
receives the outcome that the command's operands alone determine, and the core is IDLE again. The number of instants
the host leaves the core (`afterCommand`) is the model's choice (log entry 3) and is not part of R11. -/
def Obligations.CommandAnsweredFromAnyIdleState : Prop :=
  ∀ (s : State) (i : Instr), s.regs.phase = .idle → i.WellFormed s.width →
    ∃ r : Regs s.width, r.phase = .idle ∧
      afterCommand i s = .next
        { s with regs := r, inputs := [], received := s.received ++ [answer s.width i] }

/-- R58, R185: whatever an IDLE core's host does, as long as it does not reset, the responses it receives are the
outcomes of the commands issued, in issue order, with at most one command still unanswered. -/
def Obligations.ResponsesComeInIssueOrder : Prop :=
  ∀ (s : State) (n : Nat), s.regs.phase = .idle → (∀ e ∈ s.inputs, e.rst = false) →
    ∃ (r : Regs s.width) (answered pending : List Instr),
      runSteps n s = .next
        { s with
          regs := r
          inputs := s.inputs.drop n
          received := s.received ++ answered.map (answer s.width) } ∧
      issuedIn n s = answered ++ pending ∧ pending.length ≤ 1 ∧ (r.phase = .idle ↔ pending = [])

/-- R187, R168: a command within the caller's duties has a result; one outside them fails, but for EXTEND, whose result
then is less than the product; and a run without RESET in which every command issued is within them adds no failure to
the host's record, which is never cleared. -/
def Obligations.CallerDutiesPreventFailures : Prop :=
  (∀ (W : Width) (i : Instr), i.WellFormed W → InContract W i → ∃ x y, answer W i = .result x y) ∧
  (∀ (W : Width) (i : Instr), i.WellFormed W → ¬ InContract W i →
    (∃ c, answer W i = .failure c) ∨
    (∃ (m d : Nat) (x : Word W), i = .extend m d ∧ answer W i = .result x 0 ∧ x.toNat < m * 2 ^ d)) ∧
  ∀ (s t : State) (n : Nat), s.regs.phase = .idle → (∀ e ∈ s.inputs, e.rst = false) → NoFailure s →
    (∀ i ∈ issuedIn n s, InContract s.width i) → runSteps n s = .next t → NoFailure t

/-- R38, R35: two cores that differ only in registers that are written before they are read, and hence in nothing but
values the spec leaves unspecified or hidden, stay indistinguishable: after any number of steps with the same host the
outputs and the responses collected are the same. -/
def Obligations.UnspecifiedValuesNeverSeen : Prop :=
  ∀ (W : Width) (r r' : Regs W) (ins : List (Edge W)) (got : List (Response W)) (k k' n : Nat), SameLive r r' →
    ∃ (x x' : Regs W) (ins1 : List (Edge W)) (got1 : List (Response W)) (m m' : Nat),
      runSteps n { width := W, regs := r, inputs := ins, received := got, resets := k } =
        .next { width := W, regs := x, inputs := ins1, received := got1, resets := m } ∧
      runSteps n { width := W, regs := r', inputs := ins, received := got, resets := k' } =
        .next { width := W, regs := x', inputs := ins1, received := got1, resets := m' } ∧
      outputs x = outputs x' ∧ SameLive x x'

/-- R59: several cores share nothing: in any interleaving each of them ends where it would have ended alone, after as
many steps as it was given. -/
def Obligations.CoresAreIndependent : Prop :=
  ∀ (cores : System) (turns : List Nat), ∃ cores' : System, systemRun turns cores = .next cores' ∧
    cores'.length = cores.length ∧
    ∀ (k : Nat) (s : State), cores[k]? = some s →
      ∃ t, runSteps (turns.count k) s = .next t ∧ cores'[k]? = some t

/-! ## CRC generation and checking -/

/-- R141: DEGREE of a nonzero value binds `len(v) - 1`; of 0 it stops with ZERO_OPERAND. -/
def Obligations.DegreeScript : Prop :=
  ∀ (s : State) (v : Nat), s.regs.phase = .idle → v < 2 ^ s.width.bits →
    (v = 0 → runScript (degreeLines (.literal v) 0 1) [] s = .error (.failed .zeroOperand)) ∧
    (v ≠ 0 → ∃ (names : Bindings) (t : State),
      runScript (degreeLines (.literal v) 0 1) [] s = .ok (names, t) ∧
      lookup 1 names = some (len (trunc s.width.bits v) - 1) ∧ t.regs.phase = .idle)

/-- R140: CRCGEN binds the values its lines say, and, when the EXTEND is in contract, the codeword is the message
followed by the remainder. -/
def Obligations.CrcgenScript : Prop :=
  ∀ (s : State) (m v : Nat), s.regs.phase = .idle → m < 2 ^ s.width.bits → v < 2 ^ s.width.bits → v ≠ 0 →
    ∃ (names : Bindings) (t : State) (d : Nat) (e q r : Word s.width),
      runScript (crcgenLines (.literal m) (.literal v) 0 1 2 3 4 5) [] s = .ok (names, t) ∧
      t.regs.phase = .idle ∧
      d = len (trunc s.width.bits v) - 1 ∧ lookup 1 names = some d ∧
      e = extendWord (trunc s.width.bits m) d ∧ lookup 2 names = some e.toNat ∧
      polydiv e (trunc s.width.bits v) = .ok (q, r) ∧ lookup 4 names = some r.toNat ∧
      lookup 5 names = some (e ^^^ r).toNat ∧
      (m * 2 ^ d < 2 ^ s.width.bits → (e ^^^ r).toNat / 2 ^ d = m ∧ (e ^^^ r).toNat % 2 ^ d = r.toNat)

/-- R143: the round trip: checking a generated codeword leaves the remainder 0, for every message and every nonzero
divisor, in contract or not. -/
def Obligations.CrcRoundTrip : Prop :=
  ∀ (s : State) (m v : Nat), s.regs.phase = .idle → m < 2 ^ s.width.bits → v < 2 ^ s.width.bits → v ≠ 0 →
    ∃ (names : Bindings) (t : State),
      runScript (crcgenLines (.literal m) (.literal v) 0 1 2 3 4 5 ++
        crcchkLines (.name 5) (.literal v) 6 7 8) [] s = .ok (names, t) ∧
      lookup 7 names = some 0 ∧ lookup 8 names = some 1 ∧ t.regs.phase = .idle

/-- R146: the remainder of a corrupted codeword is that of the error pattern alone; the check fails exactly when the
divisor does not divide the pattern, and it detects every nonzero pattern shorter than the divisor. -/
def Obligations.ErrorsSeenByTheirOwnRemainder : Prop :=
  ∀ (w : Nat) (c err v q : BitVec w), v ≠ 0 → polydiv c v = .ok (q, 0) →
    (∀ q' r', polydiv err v = .ok (q', r') → ∃ q'', polydiv (c ^^^ err) v = .ok (q'', r')) ∧
    ((∃ q'', polydiv (c ^^^ err) v = .ok (q'', 0)) ↔ ∃ q' : BitVec w, err.toNat = gf2mul q' v) ∧
    (err ≠ 0 → len err < len v → ∃ q'', polydiv (c ^^^ err) v = .ok (q'', err))

/-- R81: a command line whose command raises stops the script, unless it is written `-> !x`, which binds the cause. -/
def Obligations.ScriptStopsAtAnUnexpectedFailure : Prop :=
  ∀ (s : State) (names : Bindings) (m : Mnemonic) (a : ScriptOperand) (b : Option ScriptOperand) (i : Instr)
    (c : InvalidArgument), s.regs.phase = .idle → i.WellFormed s.width →
    lineCommand names m a b = .ok i → answer s.width i = .failure c →
    (∀ x, runLine (.command m a b (.first x)) names s = .error (.failed c)) ∧
    (∀ x y, runLine (.command m a b (.both x y)) names s = .error (.failed c)) ∧
    runLine (.command m a b .nothing) names s = .error (.failed c) ∧
    ∀ x, ∃ t : State, t.regs.phase = .idle ∧
      runLine (.command m a b (.cause x)) names s = .ok ((x, c.code.toNat) :: names, t)
end

