-- ==== Sys2Proof/Laws/State.lean ====
section
/-! SUPPORT. One lemma for each field and each update of the registers and of the state, so that no proof unfolds a record
update. -/

namespace Sys2Proof.Machine

section

variable {W : Width} (r : Regs W)

@[simp] theorem raise_phase (c : InvalidArgument) : (raise c r).phase = .done := rfl
@[simp] theorem raise_op (c : InvalidArgument) : (raise c r).op = r.op := rfl
@[simp] theorem raise_a (c : InvalidArgument) : (raise c r).a = r.a := rfl
@[simp] theorem raise_b (c : InvalidArgument) : (raise c r).b = r.b := rfl
@[simp] theorem raise_quot (c : InvalidArgument) : (raise c r).quot = r.quot := rfl
@[simp] theorem raise_acc (c : InvalidArgument) : (raise c r).acc = r.acc := rfl
@[simp] theorem raise_idx (c : InvalidArgument) : (raise c r).idx = r.idx := rfl
@[simp] theorem raise_cause (c : InvalidArgument) : (raise c r).cause = c.code := rfl
@[simp] theorem raise_res0 (c : InvalidArgument) : (raise c r).res0 = r.res0 := rfl
@[simp] theorem raise_res1 (c : InvalidArgument) : (raise c r).res1 = r.res1 := rfl

@[simp] theorem respond_phase (r0 r1 : Word W) : (respond r0 r1 r).phase = .done := rfl
@[simp] theorem respond_op (r0 r1 : Word W) : (respond r0 r1 r).op = r.op := rfl
@[simp] theorem respond_a (r0 r1 : Word W) : (respond r0 r1 r).a = r.a := rfl
@[simp] theorem respond_b (r0 r1 : Word W) : (respond r0 r1 r).b = r.b := rfl
@[simp] theorem respond_quot (r0 r1 : Word W) : (respond r0 r1 r).quot = r.quot := rfl
@[simp] theorem respond_acc (r0 r1 : Word W) : (respond r0 r1 r).acc = r.acc := rfl
@[simp] theorem respond_idx (r0 r1 : Word W) : (respond r0 r1 r).idx = r.idx := rfl
@[simp] theorem respond_cause (r0 r1 : Word W) : (respond r0 r1 r).cause = causeNone := rfl
@[simp] theorem respond_res0 (r0 r1 : Word W) : (respond r0 r1 r).res0 = r0 := rfl
@[simp] theorem respond_res1 (r0 r1 : Word W) : (respond r0 r1 r).res1 = r1 := rfl

@[simp] theorem advance_phase (q k : Word W) : (advance q k r).phase = r.phase := rfl
@[simp] theorem advance_op (q k : Word W) : (advance q k r).op = r.op := rfl
@[simp] theorem advance_a (q k : Word W) : (advance q k r).a = r.a := rfl
@[simp] theorem advance_b (q k : Word W) : (advance q k r).b = r.b := rfl
@[simp] theorem advance_quot (q k : Word W) : (advance q k r).quot = q := rfl
@[simp] theorem advance_acc (q k : Word W) : (advance q k r).acc = k := rfl
@[simp] theorem advance_idx (q k : Word W) : (advance q k r).idx = r.idx + 1 := rfl
@[simp] theorem advance_cause (q k : Word W) : (advance q k r).cause = r.cause := rfl
@[simp] theorem advance_res0 (q k : Word W) : (advance q k r).res0 = r.res0 := rfl
@[simp] theorem advance_res1 (q k : Word W) : (advance q k r).res1 = r.res1 := rfl

@[simp] theorem latch_phase (o : Opcode) (x y : Word W) : (latch o x y r).phase = .busy := rfl
@[simp] theorem latch_op (o : Opcode) (x y : Word W) : (latch o x y r).op = o := rfl
@[simp] theorem latch_a (o : Opcode) (x y : Word W) : (latch o x y r).a = x := rfl
@[simp] theorem latch_b (o : Opcode) (x y : Word W) : (latch o x y r).b = y := rfl
@[simp] theorem latch_quot (o : Opcode) (x y : Word W) : (latch o x y r).quot = 0 := rfl
@[simp] theorem latch_acc (o : Opcode) (x y : Word W) : (latch o x y r).acc = 0 := rfl
@[simp] theorem latch_idx (o : Opcode) (x y : Word W) : (latch o x y r).idx = 1 := rfl
@[simp] theorem latch_cause (o : Opcode) (x y : Word W) : (latch o x y r).cause = r.cause := rfl
@[simp] theorem latch_res0 (o : Opcode) (x y : Word W) : (latch o x y r).res0 = r.res0 := rfl
@[simp] theorem latch_res1 (o : Opcode) (x y : Word W) : (latch o x y r).res1 = r.res1 := rfl

@[simp] theorem issueWord_phase (word : Wire W) : (issueWord word r).phase = .busy := rfl
@[simp] theorem issueWord_op (word : Wire W) : (issueWord word r).op = reqOp word := rfl
@[simp] theorem issueWord_a (word : Wire W) : (issueWord word r).a = reqA word := rfl
@[simp] theorem issueWord_b (word : Wire W) : (issueWord word r).b = reqB word := rfl
@[simp] theorem issueWord_quot (word : Wire W) : (issueWord word r).quot = 0 := rfl
@[simp] theorem issueWord_acc (word : Wire W) : (issueWord word r).acc = 0 := rfl
@[simp] theorem issueWord_idx (word : Wire W) : (issueWord word r).idx = 1 := rfl
@[simp] theorem issueWord_cause (word : Wire W) : (issueWord word r).cause = r.cause := rfl
@[simp] theorem issueWord_res0 (word : Wire W) : (issueWord word r).res0 = r.res0 := rfl
@[simp] theorem issueWord_res1 (word : Wire W) : (issueWord word r).res1 = r.res1 := rfl

@[simp] theorem release_phase : (release r).phase = .idle := rfl
@[simp] theorem release_op : (release r).op = r.op := rfl
@[simp] theorem release_a : (release r).a = r.a := rfl
@[simp] theorem release_b : (release r).b = r.b := rfl
@[simp] theorem release_quot : (release r).quot = r.quot := rfl
@[simp] theorem release_acc : (release r).acc = r.acc := rfl
@[simp] theorem release_idx : (release r).idx = r.idx := rfl
@[simp] theorem release_cause : (release r).cause = r.cause := rfl
@[simp] theorem release_res0 : (release r).res0 = r.res0 := rfl
@[simp] theorem release_res1 : (release r).res1 = r.res1 := rfl

@[simp] theorem scramble_phase (n : Nat) : (scramble W n).phase = .idle := rfl

@[simp] theorem regsReset_phase : (Regs.reset W).phase = .idle := rfl

end

section

variable (s : State)

@[simp] theorem issue_width (word : Wire s.width) : (issue s word).width = s.width := rfl
@[simp] theorem issue_regs (word : Wire s.width) : (issue s word).regs = issueWord word s.regs := rfl
@[simp] theorem issue_inputs (word : Wire s.width) : (issue s word).inputs = s.inputs := rfl
@[simp] theorem issue_received (word : Wire s.width) : (issue s word).received = s.received := rfl
@[simp] theorem issue_resets (word : Wire s.width) : (issue s word).resets = s.resets := rfl

@[simp] theorem collect_width : (collect s).width = s.width := rfl
@[simp] theorem collect_regs : (collect s).regs = release s.regs := rfl
@[simp] theorem collect_inputs : (collect s).inputs = s.inputs := rfl
@[simp] theorem collect_received : (collect s).received = s.received ++ [response s.regs] := rfl
@[simp] theorem collect_resets : (collect s).resets = s.resets := rfl

@[simp] theorem resetEvent_width : (resetEvent s).width = s.width := rfl
@[simp] theorem resetEvent_regs : (resetEvent s).regs = scramble s.width s.resets := rfl
@[simp] theorem resetEvent_inputs : (resetEvent s).inputs = s.inputs := rfl
@[simp] theorem resetEvent_received : (resetEvent s).received = s.received := rfl
@[simp] theorem resetEvent_resets : (resetEvent s).resets = s.resets + 1 := rfl

@[simp] theorem advanceHost_width : (advanceHost s).width = s.width := rfl
@[simp] theorem advanceHost_regs : (advanceHost s).regs = s.regs := rfl
@[simp] theorem advanceHost_inputs : (advanceHost s).inputs = s.inputs.tail := rfl
@[simp] theorem advanceHost_received : (advanceHost s).received = s.received := rfl
@[simp] theorem advanceHost_resets : (advanceHost s).resets = s.resets := rfl

@[simp] theorem holding_width (i : Instr) : (holding i s).width = s.width := rfl
@[simp] theorem holding_regs (i : Instr) :
    (holding i s).regs = latch i.opcode (trunc s.width.bits i.fieldA) (trunc s.width.bits i.fieldB) s.regs := rfl
@[simp] theorem holding_inputs (i : Instr) : (holding i s).inputs = Edge.quiet :: s.inputs := rfl
@[simp] theorem holding_received (i : Instr) : (holding i s).received = s.received := rfl
@[simp] theorem holding_resets (i : Instr) : (holding i s).resets = s.resets := rfl

@[simp] theorem resetAt_width (W : Width) : (State.resetAt W).width = W := rfl
@[simp] theorem resetAt_regs (W : Width) : (State.resetAt W).regs = Regs.reset W := rfl
@[simp] theorem resetAt_inputs (W : Width) : (State.resetAt W).inputs = [] := rfl
@[simp] theorem resetAt_received (W : Width) : (State.resetAt W).received = [] := rfl
@[simp] theorem resetAt_resets (W : Width) : (State.resetAt W).resets = 0 := rfl

end

end Sys2Proof.Machine
end

