-- ==== Sys2Proof/Laws/Ops.lean ====
section
/-! SUPPORT. For each shared operation, one lemma that says what it does; the provers cite these instead of unfolding the
operation. -/

namespace Sys2Proof.Machine

/-! ## The scanner -/

section

variable {w : Nat} (v : BitVec w)

/-- Below the highest set bit under `k`, or 0. -/
theorem scan_le (k : Nat) : scan v k ≤ k := by
  induction k with
  | zero => simp [scan]
  | succ k ih =>
    simp only [scan]
    split
    · exact le_rfl
    · exact Nat.le_succ_of_le ih

/-- No bit from `scan v k` up to `k` is set. -/
theorem scan_clear_above (k : Nat) : ∀ j, scan v k ≤ j → j < k → v.getLsbD j = false := by
  induction k with
  | zero => intro j _ h; exact absurd h (Nat.not_lt_zero j)
  | succ k ih =>
    intro j hj hk
    simp only [scan] at hj
    split at hj
    · omega
    · rename_i h
      rcases Nat.lt_succ_iff_lt_or_eq.mp hk with h' | rfl
      · exact ih j hj h'
      · simpa using h

/-- If the scan finds a bit, that bit is set. -/
theorem scan_top_set (k : Nat) : 0 < scan v k → v.getLsbD (scan v k - 1) = true := by
  induction k with
  | zero => intro h; exact absurd h (Nat.lt_irrefl 0)
  | succ k ih =>
    intro h
    simp only [scan] at h ⊢
    split
    · simpa
    · rename_i h'
      exact ih (by simpa [h'] using h)

theorem len_le_width : len v ≤ w := scan_le v w

theorem len_clear_above (j : Nat) (h : len v ≤ j) : v.getLsbD j = false := by
  by_cases hj : j < w
  · exact scan_clear_above v w j h hj
  · exact BitVec.getLsbD_of_ge v j (Nat.le_of_not_lt hj)

theorem len_top_set (h : 0 < len v) : v.getLsbD (len v - 1) = true := scan_top_set v w h

@[simp] theorem len_zero : len (0#w) = 0 := by
  by_contra h
  simpa using len_top_set (0#w) (Nat.pos_of_ne_zero h)

/-- A nonzero value has a significant bit. -/
theorem len_pos_of_ne_zero (h : v ≠ 0) : 0 < len v := by
  by_contra h0
  refine h (BitVec.eq_of_getLsbD_eq fun i _ => ?_)
  simpa using len_clear_above v i (by omega)

end

/-! ## The extractor, the shift and the iteration -/

/-- R100: inside its domain the extracted bit is bit number `len(v) - i`. -/
theorem bitat_of_mem {w : Nat} (v : BitVec w) (i : Nat) (h1 : 1 ≤ i) (h2 : i ≤ len v) :
    bitat v i = v.getLsbD (len v - i) := by
  simp [bitat, h1, h2]

theorem extendWord_of_lt {w : Nat} (m : BitVec w) (d : Nat) (h : d < w) :
    extendWord m d = trunc w (m.toNat * 2 ^ d) := by
  simp [extendWord, Nat.not_le.mpr h]

theorem extendWord_of_ge {w : Nat} (m : BitVec w) (d : Nat) (h : w ≤ d) : extendWord m d = 0 := by
  simp [extendWord, h]

/-- R123: an iteration either subtracts the divisor and appends a 1, or appends a 0. -/
theorem divStep_cases {w : Nat} (a b : BitVec w) (i : Nat) (quot acc : BitVec w) :
    (fits b (bringDown acc (bitat a i)) = true ∧
      divStep a b i quot acc = (quot <<< 1 ||| zextBit w true, bringDown acc (bitat a i) ^^^ b)) ∨
    (fits b (bringDown acc (bitat a i)) = false ∧
      divStep a b i quot acc = (quot <<< 1, bringDown acc (bitat a i))) := by
  cases h : fits b (bringDown acc (bitat a i)) <;> simp [divStep, h]

@[simp] theorem divRun_zero {w : Nat} (a b : BitVec w) (i : Nat) (quot acc : BitVec w) :
    divRun a b 0 i quot acc = (quot, acc) := rfl

@[simp] theorem divRun_succ {w : Nat} (a b : BitVec w) (n i : Nat) (quot acc : BitVec w) :
    divRun a b (n + 1) i quot acc =
      divRun a b n (i + 1) (divStep a b i quot acc).1 (divStep a b i quot acc).2 := rfl

/-- The last of `n + 1` iterations comes after the first `n`. -/
theorem divRun_snoc {w : Nat} (a b : BitVec w) (n : Nat) : ∀ (i : Nat) (quot acc : BitVec w),
    divRun a b (n + 1) i quot acc =
      divStep a b (i + n) (divRun a b n i quot acc).1 (divRun a b n i quot acc).2 := by
  induction n with
  | zero => intro i quot acc; rfl
  | succ n ih =>
    intro i quot acc
    rw [divRun_succ, ih, divRun_succ, Nat.add_assoc, Nat.add_comm 1 n]

/-! ## Operands and commands -/

@[simp] theorem trunc_toNat_of_word {W : Width} (v : Word W) : trunc W.bits v.toNat = v := by
  simp [trunc]

/-- R72: a command of this core changes nothing but the registers. -/
theorem withOperands_of_fits {a b : Nat} {s : State}
    (h : FitsWidth s.width a ∧ FitsWidth s.width b) (k : Word s.width → Word s.width → Regs s.width → Regs s.width) :
    withOperands a b s k =
      .next { s with regs := k (trunc s.width.bits a) (trunc s.width.bits b) s.regs } := by
  simp [withOperands, h]

theorem withOperands_of_not_fits {a b : Nat} {s : State}
    (h : ¬ (FitsWidth s.width a ∧ FitsWidth s.width b))
    (k : Word s.width → Word s.width → Regs s.width → Regs s.width) :
    withOperands a b s k = .refused .operandTooWide := by
  simp [withOperands, h]

/-- R31: the effect of one EXEC of a command on the registers. -/
def effect {W : Width} (i : Instr) (r : Regs W) : Regs W :=
  let a := trunc W.bits i.fieldA
  let b := trunc W.bits i.fieldB
  match i with
  | .bitlen _ _ => bitlenRegs a r
  | .bitat _ _ => bitatRegs a b r
  | .extend _ _ => extendRegs a b r
  | .polydiv _ _ => polydivRegs a b r

/-- R31: one EXEC of a command of this core, as one equation for all four. -/
theorem exec_eq_effect {i : Instr} {s : State} (h : i.WellFormed s.width) :
    exec i s = .next { s with regs := effect i s.regs } := by
  cases i with
  | bitlen n unused => exact withOperands_of_fits (a := n) (b := unused) h (fun a _ r => bitlenRegs a r)
  | bitat value index => exact withOperands_of_fits (a := value) (b := index) h (fun a b r => bitatRegs a b r)
  | extend message degree =>
    exact withOperands_of_fits (a := message) (b := degree) h (fun a b r => extendRegs a b r)
  | polydiv dividend divisor =>
    exact withOperands_of_fits (a := dividend) (b := divisor) h (fun a b r => polydivRegs a b r)

/-- R126: what one EXEC of POLYDIV can do. -/
theorem polydivRegs_cases {W : Width} (a b : Word W) (r : Regs W) :
    (b = 0 ∧ polydivRegs a b r = raise .zeroDivisor r) ∨
    (b ≠ 0 ∧ r.idx.toNat ≤ len a ∧ polydivRegs a b r =
      advance (divStep a b r.idx.toNat r.quot r.acc).1 (divStep a b r.idx.toNat r.quot r.acc).2 r) ∨
    (b ≠ 0 ∧ len a < r.idx.toNat ∧ polydivRegs a b r = respond r.quot r.acc r) := by
  by_cases hb : b = 0
  · exact .inl ⟨hb, if_pos hb⟩
  · by_cases hi : r.idx.toNat ≤ len a
    · exact .inr (.inl ⟨hb, hi, (if_neg hb).trans (if_pos hi)⟩)
    · exact .inr (.inr ⟨hb, Nat.lt_of_not_le hi, (if_neg hb).trans (if_neg hi)⟩)

/-- R31: what one EXEC of a command can do to the registers: raise the cause of its outcome, respond with its result, or,
for POLYDIV with a nonzero divisor, finish the division or make one iteration. -/
theorem effect_cases {W : Width} (i : Instr) (r : Regs W) :
    (∃ c, effect i r = raise c r ∧ answer W i = .failure c) ∨
    (∃ x y, effect i r = respond x y r ∧ (∀ d v, i ≠ .polydiv d v) ∧ answer W i = .result x y) ∨
    (∃ d v, i = .polydiv d v ∧ trunc W.bits v ≠ 0 ∧ len (trunc W.bits d) < r.idx.toNat ∧
      effect i r = respond r.quot r.acc r) ∨
    (∃ d v, i = .polydiv d v ∧ trunc W.bits v ≠ 0 ∧ r.idx.toNat ≤ len (trunc W.bits d) ∧
      effect i r = advance
        (divStep (trunc W.bits d) (trunc W.bits v) r.idx.toNat r.quot r.acc).1
        (divStep (trunc W.bits d) (trunc W.bits v) r.idx.toNat r.quot r.acc).2 r) := by
  cases i with
  | bitlen n unused =>
    by_cases h : trunc W.bits n = 0
    · exact .inl ⟨.zeroOperand, if_pos h, if_pos h⟩
    · exact .inr (.inl ⟨_, _, if_neg h, by simp, if_neg h⟩)
  | bitat value index =>
    by_cases h : trunc W.bits value = 0
    · exact .inl ⟨.zeroOperand, if_pos h, if_pos h⟩
    · by_cases h2 : trunc W.bits index = 0 ∨ len (trunc W.bits value) < (trunc W.bits index).toNat
      · exact .inl ⟨.indexRange, (if_neg h).trans (if_pos h2), (if_neg h).trans (if_pos h2)⟩
      · exact .inr (.inl ⟨_, _, (if_neg h).trans (if_neg h2), by simp, (if_neg h).trans (if_neg h2)⟩)
  | extend message degree => exact .inr (.inl ⟨_, _, rfl, by simp, rfl⟩)
  | polydiv dividend divisor =>
    rcases polydivRegs_cases (trunc W.bits dividend) (trunc W.bits divisor) r with ⟨h, e⟩ | ⟨h, h1, e⟩ | ⟨h, h1, e⟩
    · refine .inl ⟨.zeroDivisor, e, ?_⟩
      have hp : polydiv (trunc W.bits dividend) (trunc W.bits divisor) = .error .zeroDivisor := if_pos h
      simp only [answer, Instr.fieldA, Instr.fieldB, hp]
    · exact .inr (.inr (.inr ⟨dividend, divisor, rfl, h, h1, e⟩))
    · exact .inr (.inr (.inl ⟨dividend, divisor, rfl, h, h1, e⟩))

/-- R76: after a raise the response is the failure with that cause. -/
@[simp] theorem response_raise {W : Width} (c : InvalidArgument) (r : Regs W) : response (raise c r) = .failure c := by
  cases c <;> rfl

/-- R74: after a result the response is that result. -/
@[simp] theorem response_respond {W : Width} (x y : Word W) (r : Regs W) : response (respond x y r) = .result x y := rfl

/-! ## Small facts about the shared definitions -/

theorem trunc_toNat {w n : Nat} (h : n < 2 ^ w) : (trunc w n).toNat = n := by
  simp [trunc, Nat.mod_eq_of_lt h]

theorem trunc_eq_zero_iff {w n : Nat} (h : n < 2 ^ w) : trunc w n = 0 ↔ n = 0 := by
  constructor
  · intro e
    simpa [trunc_toNat h] using congrArg BitVec.toNat e
  · rintro rfl
    rfl

/-- R6: the counter does not wrap while it counts the bits of a dividend. -/
theorem counter_succ {W : Width} (x : Counter W) (h : x.toNat ≤ W.bits) : (x + 1).toNat = x.toNat + 1 := by
  have hw : W.bits + 1 < 2 ^ W.cw := by cases W <;> decide
  have h1 : 1 % 2 ^ W.cw = 1 := Nat.mod_eq_of_lt (by omega)
  have hx : x.toNat + 1 < 2 ^ W.cw := by omega
  simp [BitVec.toNat_add, h1, Nat.mod_eq_of_lt hx]

theorem counter_one (W : Width) : (1 : Counter W).toNat = 1 := by
  cases W <;> decide

end Sys2Proof.Machine
end

