-- ==== Sys2Proof/Laws/PerInstr.lean ====
section
/-! SUPPORT. A family of statements, one lemma per constructor of `Instr`: the request word of a command matches the row
of the opcode map of its own opcode (R79). -/

namespace Sys2Proof

/-- R79: masking a packed word leaves its opcode field. -/
theorem packed_and_rowMask (W : Width) (op : Opcode) (a b : Nat) (ha : FitsWidth W a) (hb : FitsWidth W b) :
    (BitVec.ofNat W.wireBits (packFields W op a b) &&& rowMask W) = rowMatch W op := by
  have hop := op.isLt
  have hlo : a * 2 ^ W.bits + b < 2 ^ (2 * W.bits) := by
    have : 2 ^ (2 * W.bits) = 2 ^ W.bits * 2 ^ W.bits := by rw [Nat.two_mul, Nat.pow_add]
    nlinarith
  have hpack : packFields W op a b = op.toNat * 2 ^ (2 * W.bits) + (a * 2 ^ W.bits + b) := by
    simp [packFields, Nat.add_assoc]
  apply BitVec.eq_of_getLsbD_eq
  intro j hj
  have hj' : j < 2 * W.bits + 2 := hj
  simp only [rowMask, rowMatch, BitVec.getLsbD_and, BitVec.getLsbD_ofNat, hj, decide_true, Bool.true_and, hpack]
  rw [Nat.mul_comm op.toNat, Nat.mul_comm 3, Nat.testBit_two_pow_mul_add _ hlo, Nat.testBit_two_pow_mul,
    Nat.testBit_two_pow_mul]
  by_cases hk : j < 2 * W.bits
  · simp [hk, Nat.not_le.mpr hk]
  · have h01 : j - 2 * W.bits = 0 ∨ j - 2 * W.bits = 1 := by omega
    have h3 : Nat.testBit 3 (j - 2 * W.bits) = true := by rcases h01 with h | h <;> rw [h] <;> decide
    simp [hk, Nat.le_of_not_lt hk, h3]

namespace Laws.OwnRow

/-- R79: on every core of which `i` is a command, its request word matches the row of its opcode. -/
def Statement (i : Instr) : Prop := ∀ W : Width, i.WellFormed W → (encode W i &&& rowMask W) = rowMatch W i.opcode

theorem bitlen (n unused : Nat) : Statement (.bitlen n unused) :=
  fun W h => packed_and_rowMask W _ _ _ h.1 h.2

theorem bitat (value index : Nat) : Statement (.bitat value index) :=
  fun W h => packed_and_rowMask W _ _ _ h.1 h.2

theorem extend (message degree : Nat) : Statement (.extend message degree) :=
  fun W h => packed_and_rowMask W _ _ _ h.1 h.2

theorem polydiv (dividend divisor : Nat) : Statement (.polydiv dividend divisor) :=
  fun W h => packed_and_rowMask W _ _ _ h.1 h.2

end Laws.OwnRow

end Sys2Proof
end

