-- ==== Sys2Proof/Laws/Step.lean ====
section
/-! SUPPORT. What a step can do, said once: the command in progress is always a command of the core, and a step is one of
the four events or nothing. -/

namespace Sys2Proof.Machine

/-- R24: the command in OP, A and B is a command of the core. -/
theorem current_wellFormed {W : Width} (r : Regs W) : (current r).WellFormed W := by
  have ha := r.a.isLt
  have hb := r.b.isLt
  unfold current Instr.ofFields
  split <;> exact ⟨ha, hb⟩

/-- R70: the opcode and the fields of a command put together are its own. -/
@[simp] theorem ofFields_opcode (op : Opcode) (a b : Nat) : (Instr.ofFields op a b).opcode = op := by
  have h : op = 0 ∨ op = 1 ∨ op = 2 ∨ op = 3 := by revert op; decide
  rcases h with rfl | rfl | rfl | rfl <;> rfl

@[simp] theorem ofFields_fieldA (op : Opcode) (a b : Nat) : (Instr.ofFields op a b).fieldA = a := by
  unfold Instr.ofFields
  split <;> rfl

@[simp] theorem ofFields_fieldB (op : Opcode) (a b : Nat) : (Instr.ofFields op a b).fieldB = b := by
  unfold Instr.ofFields
  split <;> rfl

/-- R24: OP, A and B alone say which command is in progress. -/
theorem current_congr {W : Width} {r r' : Regs W} (h : r'.op = r.op) (ha : r'.a = r.a) (hb : r'.b = r.b) :
    current r' = current r := by
  simp [current, h, ha, hb]

/-- R24: how a command ends does not change which command it was. -/
@[simp] theorem current_raise {W : Width} (c : InvalidArgument) (r : Regs W) : current (raise c r) = current r := rfl

@[simp] theorem current_respond {W : Width} (x y : Word W) (r : Regs W) : current (respond x y r) = current r := rfl

@[simp] theorem current_advance {W : Width} (x y : Word W) (r : Regs W) : current (advance x y r) = current r := rfl

/-- R31: the command in progress is POLYDIV exactly when OP is 3. -/
theorem current_eq_polydiv_iff {W : Width} (r : Regs W) : (∃ d v, current r = .polydiv d v) ↔ r.op = 3 := by
  constructor
  · rintro ⟨d, v, h⟩
    have := ofFields_opcode r.op r.a.toNat r.b.toNat
    rw [show Instr.ofFields r.op r.a.toNat r.b.toNat = .polydiv d v from h] at this
    exact this.symm
  · intro h
    exact ⟨r.a.toNat, r.b.toNat, by simp [current, h, Instr.ofFields]⟩

/-- R31: with OP = 3 one EXEC of the command in progress is one EXEC of POLYDIV on A and B. -/
theorem effect_current_of_op_three {W : Width} {r : Regs W} (h : r.op = 3) :
    effect (current r) r = polydivRegs r.a r.b r := by
  have hc : current r = .polydiv r.a.toNat r.b.toNat := by simp [current, h, Instr.ofFields]
  simp [hc, effect, Instr.fieldA, Instr.fieldB]

/-- R30: after ISSUE the command in progress is the one the request word spells. -/
theorem current_issueWord {W : Width} (word : Wire W) (r : Regs W) :
    current (issueWord word r) = decodeWord W word := rfl

/-- R29: the event of an instant, case by case. -/
theorem eventAt_cases {W : Width} (e : Edge W) (r : Regs W) :
    (e.rst = true ∧ eventAt e r = some .reset) ∨
    (e.rst = false ∧ r.phase = .idle ∧ eventAt e r = e.req.map .issue) ∨
    (e.rst = false ∧ r.phase = .busy ∧ eventAt e r = if e.run then some .exec else none) ∨
    (e.rst = false ∧ r.phase = .done ∧ eventAt e r = if e.rspReady then some .collect else none) := by
  cases hr : e.rst <;> cases hp : r.phase <;> simp [eventAt, hr, hp]

/-- R29: a step is an event or nothing, and always answers a state. -/
theorem step_cases (s : State) :
    (eventNow s = none ∧ step s = .next (advanceHost s)) ∨
    (∃ word, eventNow s = some (.issue word) ∧ s.regs.phase = .idle ∧
      step s = .next (issue (advanceHost s) word)) ∨
    (eventNow s = some .exec ∧ s.regs.phase = .busy ∧
      step s = .next { s with regs := effect (current s.regs) s.regs, inputs := s.inputs.tail }) ∨
    (eventNow s = some .collect ∧ s.regs.phase = .done ∧ step s = .next (collect (advanceHost s))) ∨
    (eventNow s = some .reset ∧ step s = .next (resetEvent (advanceHost s))) := by
  have hx : exec (current s.regs) (advanceHost s) =
      .next { s with regs := effect (current s.regs) s.regs, inputs := s.inputs.tail } :=
    exec_eq_effect (s := advanceHost s) (current_wellFormed s.regs)
  rcases eventAt_cases (edgeNow s) s.regs with ⟨_, h⟩ | ⟨_, hp, h⟩ | ⟨_, hp, h⟩ | ⟨_, hp, h⟩
  · exact .inr (.inr (.inr (.inr ⟨h, by simp [step, eventNow, h, perform]⟩)))
  · cases hq : (edgeNow s).req with
    | none => exact .inl (by simp [step, eventNow, h, hq, perform])
    | some word => exact .inr (.inl ⟨word, by simp [step, eventNow, h, hq, hp, perform]⟩)
  · cases hq : (edgeNow s).run with
    | false => exact .inl (by simp [step, eventNow, h, hq, perform])
    | true => exact .inr (.inr (.inl (by simp [step, eventNow, h, hq, hp, perform, hx])))
  · cases hq : (edgeNow s).rspReady with
    | false => exact .inl (by simp [step, eventNow, h, hq, perform])
    | true => exact .inr (.inr (.inr (.inl (by simp [step, eventNow, h, hq, hp, perform]))))

@[simp] theorem runSteps_zero (s : State) : runSteps 0 s = .next s := rfl

theorem runSteps_succ_of_next {s t : State} (h : step s = .next t) (n : Nat) :
    runSteps (n + 1) s = runSteps n t := by
  simp [runSteps, h]

@[simp] theorem execTimes_zero (i : Instr) (s : State) : execTimes i 0 s = .next s := rfl

theorem execTimes_succ_of_next {i : Instr} {s t : State} (h : exec i s = .next t) (n : Nat) :
    execTimes i (n + 1) s = execTimes i n t := by
  simp [execTimes, h]

end Sys2Proof.Machine
end

