-- ==== Sys2Proof/Tests/Slice0.lean ====
section
/-! SUPPORT. Tests. Expected values come from the spec's tables (the section is named at each test); a witness shows a
concrete case that meets all hypotheses of a statement together, at the boundary of each clause. -/

namespace Sys2Proof.Tests

open Sys2Proof Sys2Proof.Machine

/-! ## Small states -/

/-- The core of width `W` just after ISSUE of the command `i`, in a run that has just begun. -/
def issued (W : Width) (i : Instr) : State :=
  { State.resetAt W with
    regs := latch i.opcode (trunc W.bits i.fieldA) (trunc W.bits i.fieldB) (Regs.reset W) }

/-- The state after one EXEC of the command `i`, or the state before it if there is none. -/
def afterExec (i : Instr) (s : State) : State :=
  match exec i s with
  | .next t => t
  | _ => s

/-- The state after one step, or the state before it if there is none. -/
def afterStep (s : State) : State :=
  match step s with
  | .next t => t
  | _ => s

/-- The response after one EXEC of a command just issued. -/
def answered (i : Instr) : Response (afterExec i (issued .w16 i)).width :=
  response (afterExec i (issued .w16 i)).regs

/-- A response as numbers: cause, first and second result (0, 0 for a failure). -/
def triple {W : Width} (r : Response W) : Nat × Nat × Nat :=
  match r with
  | .result x y => (0, x.toNat, y.toNat)
  | .failure c => (c.code.toNat, 0, 0)

/-- A division of width 16 in progress. -/
def dividing (a b quot acc : Word .w16) (idx : Counter .w16) : Regs .w16 :=
  { Regs.reset .w16 with phase := .busy, op := 3, a := a, b := b, quot := quot, acc := acc, idx := idx }

/-- A core of width 16 with the registers `r`. -/
def coreWith (r : Regs .w16) : State := { State.reset with regs := r }

/-- A host that offers a word and does nothing else. -/
def offering (word : Wire .w16) : Edge .w16 := { (Edge.quiet : Edge .w16) with req := some word }

/-- A host that resets, offers a word and takes a response, all at once. -/
def everything (word : Wire .w16) : Edge .w16 := { rst := true, req := some word, rspReady := true, run := true }

/-- A core of width 16 that has finished BITLEN 0b1101, with a host that does `e`. -/
def finished (e : Edge .w16) : State :=
  { State.reset with
    regs := { Regs.reset .w16 with phase := .done, a := 0xD, idx := 1, res0 := 4 }
    inputs := [e] }

/-! ## Well-formedness refuses each kind of ill-formed term (R72) -/

theorem test_illFormed_first_operand : ¬ (Instr.bitlen 0x10000 0).WellFormed .w16 := by decide
theorem test_illFormed_second_operand : ¬ (Instr.polydiv 0 0x100).WellFormed .w8 := by decide
theorem test_illFormed_is_refused : exec (.bitlen 0x10000 0) State.reset = .refused .operandTooWide := rfl
theorem test_wellFormed_largest : (Instr.polydiv 0xFFFF 0xFFFF).WellFormed .w16 := by decide
theorem test_width_twelve_refused : Width.ofBits 12 = .error (.illegalWidth 12) := rfl
theorem witness_LegalWidths : Width.ofBits 64 = .ok .w64 ∧ ¬ (65 = 8 ∨ 65 = 16 ∨ 65 = 32 ∨ 65 = 64) :=
  ⟨rfl, by decide⟩

/-! ## Decoding: words written out bit by bit from R79 -/

theorem test_decode_bitlen :
    decodeTableWord 34 0b0000000000000011010000000000000000 = some (.bitlen 0b1101 0) := by decide
theorem test_decode_bitat :
    decodeTableWord 34 0b0110101011110011010000000000000111 = some (.bitat 0xABCD 7) := by decide
theorem test_decode_extend :
    decodeTableWord 34 0b1000000000000010110000000000000100 = some (.extend 0x000B 4) := by decide
theorem test_decode_polydiv :
    decodeTableWord 34 0b1100000100110100000000000000001101 = some (.polydiv 0x04D0 0x000D) := by decide
theorem test_decode_too_long : decode .w16 0x400000000 = .error .tooLong := rfl
theorem test_rows_w16 :
    rowMask .w16 = 0x300000000#34 ∧ rowMatch .w16 0 = 0x000000000#34 ∧ rowMatch .w16 1 = 0x100000000#34 ∧
      rowMatch .w16 2 = 0x200000000#34 ∧ rowMatch .w16 3 = 0x300000000#34 := ⟨rfl, rfl, rfl, rfl, rfl⟩
/-- R79, 95_test_vectors.md section 2.6. -/
theorem test_response_word :
    encodeResponse (.result 0x00F9 0x0005 : Response .w16) 0 0 = 0x000F90005#34 ∧
      decodeResponse (W := .w16) 0x200000000#34 = .failure .zeroDivisor := ⟨rfl, rfl⟩

/-! ## One EXEC of each command (95_test_vectors.md sections 2.1 to 2.4) -/

theorem test_bitlen_counts_from_bit_zero : triple (answered (.bitlen 0x000C 0)) = (0, 4, 0) := by decide
theorem test_bitlen_zero : triple (answered (.bitlen 0 0xFFFF)) = (1, 0, 0) := by decide
theorem test_bitat_second_and_third_bit :
    triple (answered (.bitat 0x000C 2)) = (0, 1, 0) ∧ triple (answered (.bitat 0x000C 3)) = (0, 0, 0) := by decide
theorem test_bitat_index_above_span :
    triple (answered (.bitat 0x8000 17)) = (3, 0, 0) ∧ triple (answered (.bitat 0 0)) = (1, 0, 0) := by decide
theorem test_extend_loses_top_bit : triple (answered (.extend 0x009A 9)) = (0, 0x3400, 0) := by decide
theorem test_extend_huge_degree : triple (answered (.extend 0xFFFF 0xFFFF)) = (0, 0, 0) := by decide
/-- 95_test_vectors.md P4, events 5 and 6: the fifth iteration of POLYDIV 0xFFFF, 0x0013. -/
theorem test_polydiv_fifth_iteration :
    afterExec (.polydiv 0xFFFF 0x0013) (coreWith (dividing 0xFFFF 0x13 0 0xF 5)) =
      coreWith (dividing 0xFFFF 0x13 1 0xC 6) := by decide
/-- R136: the finishing step of the traced division, and R121: the zero divisor. -/
theorem test_polydiv_ends :
    triple (response (afterExec (.polydiv 0x04D0 0x000D) (coreWith (dividing 0x4D0 0xD 0xF9 5 12))).regs) =
        (0, 0xF9, 5) ∧
      triple (answered (.polydiv 0 0)) = (2, 0, 0) := by decide

/-! ## Steps (95_test_vectors.md section 2.7) -/

theorem test_step_issues :
    let t := afterStep { State.reset with inputs := [offering 0x0000D0000#34] }
    ready t.regs = false ∧ valid t.regs = false ∧ current t.regs = .bitlen 0xD 0 := by decide
theorem test_step_reset_wins :
    let t := afterStep (finished (everything 0x0000D0000#34))
    ready t.regs = true ∧ valid t.regs = false ∧ t.received = [] := by decide
theorem test_step_collects :
    afterStep (finished { (Edge.quiet : Edge .w16) with rspReady := true }) =
      { State.reset with
        regs := { Regs.reset .w16 with a := 0xD, idx := 1, res0 := 4 }
        received := [.result (4 : Word .w16) 0] } := by decide
theorem test_placed_word_runs :
    triple (response (afterStep (State.reset.withFetchWord 34 0x0000D0000)).regs) = (0, 4, 0) := by decide
/-- 44_crc_sequences.md R133: `0x000A ⊗ 0x1021 = 0xA14A` (95_test_vectors.md section 2.4). -/
theorem test_product : gf2mul (0x000A#16) (0x1021#16) = 0xA14A := by decide

/-! ## Witnesses: the hypotheses of each statement can be met -/

theorem witness_RequestWordPacksItsFields : (Instr.polydiv 0xFFFF 0xFFFF).WellFormed .w16 := by decide
theorem witness_DecodeOfEncode : (Instr.bitat 0xFF 0xFF).WellFormed .w8 := by decide
theorem witness_LenLaws_powers : 0 < 16 ∧ 15 ≤ 16 - 1 ∧ 1 ≤ 16 ∧ 16 ≤ 16 := by decide
theorem witness_LenLaws_values :
    (0x7FFF#16).toNat ≤ (0x8000#16).toNat ∧ 1 ≤ (0x7FFF#16).toNat ∧ 2 * (0x7FFF#16).toNat < 2 ^ 16 ∧
      len (0x8000#16) = len (0xFFFF#16) ∧ 1 ≤ len (0x8000#16) := by decide
theorem witness_LenCountsSignificantBits : (0x8000#16) ≠ 0 ∧ (0x8000#16).toNat < 2 ^ 16 ∧ (0#16).toNat < 2 ^ 0 := by
  decide
theorem witness_BitatIsTheIndexedBit_first : 1 ≤ 1 ∧ 1 ≤ len (0x8001#16) := by decide
theorem witness_BitatIsTheIndexedBit_last : 1 ≤ 16 ∧ 16 ≤ len (0x8001#16) := by decide
theorem witness_BitatLaws : (0x0001#16) ≠ 0 := by decide
theorem witness_BitlenCompletes :
    0 < 2 ^ State.reset.width.bits ∧ 0xFFFF < 2 ^ State.reset.width.bits ∧ 0xFFFF ≠ 0 := by decide
theorem witness_BitatCompletes :
    0xD < 2 ^ State.reset.width.bits ∧ 0 < 2 ^ State.reset.width.bits ∧ 4 < 2 ^ State.reset.width.bits ∧
      ¬ len (trunc State.reset.width.bits 0xD) < 4 ∧ len (trunc State.reset.width.bits 0xD) < 5 := by decide
theorem witness_ExtendCompletes :
    0xFFFF < 2 ^ State.reset.width.bits ∧ 16 < 2 ^ State.reset.width.bits ∧ State.reset.width.bits ≤ 16 := by decide
theorem witness_PolydivRejectsZeroDivisor : 0 < 2 ^ State.reset.width.bits := by decide
theorem witness_PolydivIterates :
    let s := issued .w16 (.polydiv 0x04D0 0x000D)
    0x04D0 < 2 ^ s.width.bits ∧ 0x000D < 2 ^ s.width.bits ∧ 0x000D ≠ 0 ∧ 1 ≤ s.regs.idx.toNat ∧
      s.regs.idx.toNat ≤ len (trunc s.width.bits 0x04D0) ∧ len s.regs.acc < len (trunc s.width.bits 0x000D) := by
  decide
theorem witness_PolydivFinishes :
    let s := issued .w16 (.polydiv 0 1)
    0 < 2 ^ s.width.bits ∧ 1 < 2 ^ s.width.bits ∧ 1 ≠ 0 ∧ len (trunc s.width.bits 0) < s.regs.idx.toNat := by decide
theorem witness_RaiseWritesCauseAndPhaseOnly :
    (Instr.bitat 0xD 5).WellFormed State.reset.width ∧
      answer State.reset.width (.bitat 0xD 5) = .failure .indexRange := by decide
theorem witness_OutcomeTable :
    0 < 2 ^ Width.w16.bits ∧ 0xD < 2 ^ Width.w16.bits ∧ len (trunc Width.w16.bits 0xD) < 5 ∧
      1 ≤ 4 ∧ 4 ≤ len (trunc Width.w16.bits 0xD) := by decide
theorem witness_ExecFrame_ends : ∃ t, exec (.extend 1 1) State.reset = .next t := ⟨_, rfl⟩
theorem witness_ExecFrame_iterates :
    (afterExec (.polydiv 1 1) (issued .w16 (.polydiv 1 1))).regs.idx = 2 := by decide
theorem witness_ExtendExactInContract : (0x0001#16).toNat * 2 ^ 15 < 2 ^ 16 ∧ (0x0001#16) ≠ 0 := by decide
theorem witness_ExtendLaws :
    (0x009A#16).toNat * 2 ^ 8 < 2 ^ 16 ∧ (0x009A#16) ≠ 0 ∧ (0x00FF#16).toNat < 2 ^ 8 ∧
      (0x009A#16).toNat * 2 ^ (3 + 5) < 2 ^ 16 := by decide
theorem witness_ProductBits : 0 < 16 := by decide
theorem witness_DivisionIdentity : (0b11#4) ≠ 0 ∧ 3 ≤ len (0b110#4) := by decide
theorem witness_RemainderShorterThanDivisor :
    (0b11#4) ≠ 0 ∧ 3 ≤ len (0b110#4) ∧ polydiv (0b110#4) 0b11#4 = .ok (0b10#4, 0#4) :=
  ⟨by decide, by decide, rfl⟩
theorem witness_RemainderShorterThanDivisor_one : (1#4) ≠ 0 ∧ (1#4) = 1 := by decide
theorem witness_DivisionNeverOverflows : (0b11#4) ≠ 0 ∧ 1 ≤ 2 ∧ 2 ≤ len (0b110#4) ∧
    fits (0b11#4) (bringDown (divRun (0b110#4) (0b11#4) 1 1 0 0).2 (bitat (0b110#4) 2)) = true ∧
    fits (0b11#4) (bringDown (divRun (0b110#4) (0b11#4) 0 1 0 0).2 (bitat (0b110#4) 1)) = false := by decide
theorem witness_QuotientAndRemainderUnique :
    (0b11#4) ≠ 0 ∧ (0b111#4).toNat = gf2mul (0b10#4) (0b11#4) ^^^ (1#4).toNat ∧ len (1#4) < len (0b11#4) ∧
      (0b111#4) ≠ 0 ∧ len (0b11#4) ≤ len (0b111#4) := by decide
theorem witness_QuotientAndRemainderUnique_bound :
    ¬ len (0b11#4) < len (0b11#4) ∧ polydiv (0b11#4) 0b11#4 = .ok (1#4, 0#4) ∧ len (0#4) < len (0b11#4) :=
  ⟨by decide, rfl, by decide⟩
theorem witness_QuotientAndRemainderUnique_linear :
    polydiv (0b111#4) 0b11#4 = .ok (0b10#4, 1#4) ∧ polydiv (0b110#4) 0b11#4 = .ok (0b10#4, 0#4) := ⟨rfl, rfl⟩
theorem witness_ZeroDividendGivesZero :
    let s := issued .w16 (.polydiv 0 1)
    1 < 2 ^ s.width.bits ∧ 1 ≠ 0 ∧ s.regs.quot = 0 ∧ s.regs.acc = 0 ∧ s.regs.idx = 1 := by decide
theorem witness_PolydivWorkingRegisters :
    let s := issued .w8 (.polydiv 0xFF 0x0B)
    0xFF < 2 ^ s.width.bits ∧ 0x0B < 2 ^ s.width.bits ∧ 0x0B ≠ 0 ∧ s.regs.quot = 0 ∧ s.regs.acc = 0 ∧
      s.regs.idx = 1 ∧ 8 ≤ len (trunc s.width.bits 0xFF) := by decide
theorem witness_EveryCommandReachesItsAnswer :
    let s := issued .w8 (.polydiv 0xFF 0x0B)
    (Instr.polydiv 0xFF 0x0B).WellFormed s.width ∧ s.regs.phase = .busy ∧ s.regs.quot = 0 ∧ s.regs.acc = 0 ∧
      s.regs.idx = 1 ∧ 0 < execSteps s.width (.polydiv 0xFF 0x0B) := by decide
theorem witness_StepRunsTheDecodedCommand :
    let s := issued .w16 (.bitlen 0xD 0)
    s.regs.phase = .busy ∧ (edgeNow s).rst = false ∧ (edgeNow s).run = true := by decide
theorem witness_PlacedWordRunsNext : decode State.reset.width (0x304D0000D % 2 ^ 34) = .ok (.polydiv 0x4D0 0xD) := rfl
theorem witness_StepIssues :
    let s : State := { State.reset with inputs := [offering 0x3FFFFFFFF#34] }
    s.regs.phase = .idle ∧ (edgeNow s).rst = false ∧ ∃ word, (edgeNow s).req = some word :=
  ⟨rfl, rfl, _, rfl⟩
theorem witness_StepCollects :
    let s := finished { (Edge.quiet : Edge .w16) with rspReady := true }
    s.regs.phase = .done ∧ (edgeNow s).rst = false ∧ (edgeNow s).rspReady = true := by decide
theorem witness_ResetWins : (edgeNow (finished (everything 0#34))).rst = true := by decide
theorem witness_DisabledEventsDoNothing_idle :
    (edgeNow State.reset).rst = false ∧ State.reset.regs.phase = .idle ∧ (edgeNow State.reset).req = none := by decide
theorem witness_DisabledEventsDoNothing_busy :
    let s : State := { issued .w16 (.bitlen 0xD 0) with inputs := [{ (Edge.quiet : Edge .w16) with run := false }] }
    (edgeNow s).rst = false ∧ s.regs.phase = .busy ∧ (edgeNow s).run = false := by decide
theorem witness_DisabledEventsDoNothing_done :
    let s := finished (offering 0x0000D0000#34)
    (edgeNow s).rst = false ∧ s.regs.phase = .done ∧ (edgeNow s).rspReady = false := by decide
theorem witness_PhaseMoves : ∃ t, step (issued .w16 (.bitlen 0xD 0)) = .next t := ⟨_, rfl⟩
/-- R123, R125: IDX = 1 and `len(1) = 1`, so the division of 1 iterates; `len(0) = 0`, so that of 0 finishes. -/
theorem witness_PhaseMoves_iterates :
    ∃ t, step (issued .w16 (.polydiv 1 1)) = .next t ∧ t.regs.phase = .busy := ⟨_, rfl, rfl⟩
theorem witness_PhaseMoves_finishes :
    ∃ t, step (issued .w16 (.polydiv 0 1)) = .next t ∧ t.regs.phase = .done := ⟨_, rfl, rfl⟩
theorem witness_LatchesHeldDuringACommand :
    (issued .w16 (.polydiv 1 1)).regs.phase ≠ .idle ∧ eventNow (issued .w16 (.polydiv 1 1)) ≠ some .reset := by decide
theorem witness_StatusWrittenOnlyAtTheEnd :
    eventNow (issued .w16 (.bitlen 0 0)) ≠ some .reset ∧ eventNow (issued .w16 (.bitlen 0 0)) = some .exec := by decide
theorem issued_polydiv_inv : MachineInv (issued .w16 (.polydiv 0x4D0 0xD)) :=
  ⟨by decide, by decide, rfl⟩
theorem witness_RemainderShorterThanDivisor_state :
    let s := issued .w16 (.polydiv 0x4D0 0xD)
    MachineInv s ∧ s.regs.phase = .busy ∧ s.regs.op = 3 ∧ s.regs.b ≠ 0 :=
  ⟨issued_polydiv_inv, rfl, rfl, by decide⟩
theorem witness_StepKeepsInv :
    MachineInv (issued .w16 (.polydiv 0x4D0 0xD)) ∧ ∃ t, step (issued .w16 (.polydiv 0x4D0 0xD)) = .next t :=
  ⟨issued_polydiv_inv, _, rfl⟩
theorem witness_BusyCoreReachesDone :
    let s := issued .w16 (.polydiv 0x4D0 0xD)
    MachineInv s ∧ s.regs.phase = .busy ∧ ∀ e ∈ s.inputs, e.rst = false :=
  ⟨issued_polydiv_inv, rfl, by decide⟩
theorem witness_CommandAnsweredFromAnyIdleState :
    State.reset.regs.phase = .idle ∧ (Instr.polydiv 0x4D0 0xD).WellFormed State.reset.width := by decide
theorem witness_ResponsesComeInIssueOrder :
    let s : State := { State.reset with inputs := [offering 0x0000D0000#34, offering 0x304D0000D#34] }
    s.regs.phase = .idle ∧ ∀ e ∈ s.inputs, e.rst = false := by decide
theorem witness_CallerDutiesPreventFailures_commands :
    (Instr.bitat 0xD 4).WellFormed .w16 ∧ InContract .w16 (.bitat 0xD 4) ∧
      (Instr.bitat 0xD 5).WellFormed .w16 ∧ ¬ InContract .w16 (.bitat 0xD 5) ∧
      (Instr.extend 1 16).WellFormed .w16 ∧ ¬ InContract .w16 (.extend 1 16) :=
  ⟨by decide, ⟨by decide, by decide, by decide⟩, by decide, fun h => absurd h.2.2 (by decide), by decide,
    fun h => absurd (show 1 * 2 ^ 16 < 2 ^ 16 from h) (by decide)⟩
theorem witness_CallerDutiesPreventFailures_run :
    let s : State := { State.reset with inputs := [offering 0x0000D0000#34] }
    s.regs.phase = .idle ∧ (∀ e ∈ s.inputs, e.rst = false) ∧ NoFailure s ∧ issuedIn 1 s = [.bitlen 0xD 0] ∧
      InContract s.width (.bitlen 0xD 0) ∧ ∃ t, runSteps 1 s = .next t :=
  ⟨rfl, by decide, (fun _ h => (nomatch h)), rfl, show (0xD : Nat) ≠ 0 by decide, _, rfl⟩
theorem witness_UnspecifiedValuesNeverSeen :
    SameLive (issued .w16 (.polydiv 0x4D0 0xD)).regs
      { (issued .w16 (.polydiv 0x4D0 0xD)).regs with cause := 2, res0 := 0x1234, res1 := 0x5678 } :=
  ⟨rfl, rfl, rfl, rfl, rfl, rfl, rfl⟩
theorem witness_CoresAreIndependent : ([State.reset, issued .w8 (.bitlen 1 0)] : System)[1]? =
    some (issued .w8 (.bitlen 1 0)) := rfl
theorem witness_DegreeScript :
    State.reset.regs.phase = .idle ∧ 0 < 2 ^ State.reset.width.bits ∧ 0xD < 2 ^ State.reset.width.bits ∧ 0xD ≠ 0 := by
  decide
theorem witness_CrcgenScript :
    State.reset.regs.phase = .idle ∧ 0x9A < 2 ^ State.reset.width.bits ∧ 0xD < 2 ^ State.reset.width.bits ∧ 0xD ≠ 0 ∧
      0x9A * 2 ^ (len (trunc State.reset.width.bits 0xD) - 1) < 2 ^ State.reset.width.bits := by decide
theorem witness_CrcRoundTrip :
    State.reset.regs.phase = .idle ∧ 0xFFFF < 2 ^ State.reset.width.bits ∧ 1 < 2 ^ State.reset.width.bits ∧ 1 ≠ 0 := by
  decide
theorem witness_ErrorsSeenByTheirOwnRemainder :
    (0b11#4) ≠ 0 ∧ polydiv (0b110#4) 0b11#4 = .ok (0b10#4, 0#4) ∧ (1#4) ≠ 0 ∧ len (1#4) < len (0b11#4) :=
  ⟨by decide, rfl, by decide, by decide⟩
theorem witness_ScriptStopsAtAnUnexpectedFailure :
    State.reset.regs.phase = .idle ∧ (Instr.polydiv 5 0).WellFormed State.reset.width ∧
      lineCommand [] .polydiv (.literal 5) (some (.literal 0)) = .ok (.polydiv 5 0) ∧
      answer State.reset.width (.polydiv 5 0) = .failure .zeroDivisor :=
  ⟨rfl, by decide, rfl, rfl⟩

end Sys2Proof.Tests
end

/-! The configuration: the legal widths (R5, U15) and the counter width (R6). -/

namespace Sys2Proof

/-- R5: the number of bits of a configuration is one of the four legal ones, and each of the four has a configuration. -/
theorem exists_bits_eq_iff (n : Nat) : (∃ W : Width, W.bits = n) ↔ (n = 8 ∨ n = 16 ∨ n = 32 ∨ n = 64) := by
  constructor
  · rintro ⟨W, rfl⟩
    cases W <;> decide
  · rintro (rfl | rfl | rfl | rfl)
    · exact ⟨.w8, rfl⟩
    · exact ⟨.w16, rfl⟩
    · exact ⟨.w32, rfl⟩
    · exact ⟨.w64, rfl⟩

@[simp] theorem ofBits_bits (W : Width) : Width.ofBits W.bits = .ok W := by
  cases W <;> rfl

/-- U15: a number that is no legal width is refused by name. -/
theorem ofBits_of_illegal {n : Nat} (h : ¬ (n = 8 ∨ n = 16 ∨ n = 32 ∨ n = 64)) :
    Width.ofBits n = .error (.illegalWidth n) := by
  obtain ⟨h8, h16, h32, h64⟩ : n ≠ 8 ∧ n ≠ 16 ∧ n ≠ 32 ∧ n ≠ 64 := by simpa using h
  simp [Width.ofBits, h8, h16, h32, h64]

theorem ofBits_eq_ok_iff (n : Nat) (W : Width) : Width.ofBits n = .ok W ↔ W.bits = n := by
  constructor
  · intro h
    by_cases hn : n = 8 ∨ n = 16 ∨ n = 32 ∨ n = 64
    · obtain ⟨V, rfl⟩ := (exists_bits_eq_iff n).mpr hn
      rw [ofBits_bits] at h
      cases h
      rfl
    · rw [ofBits_of_illegal hn] at h
      cases h
  · rintro rfl
    exact ofBits_bits W

/-- Settles O9: `ofBits` is the inverse of `bits` on the four legal widths, and refuses every other number. -/
theorem legalWidths : Obligations.LegalWidths := by
  intro n
  have haccept : (∃ W : Width, Width.ofBits n = .ok W) ↔ (n = 8 ∨ n = 16 ∨ n = 32 ∨ n = 64) := by
    simp only [ofBits_eq_ok_iff, exists_bits_eq_iff]
  refine ⟨haccept, fun W => (ofBits_eq_ok_iff n W).mp, fun hrefused hlegal => ?_, ofBits_of_illegal⟩
  obtain ⟨W, hW⟩ := haccept.mpr hlegal
  rw [hrefused] at hW
  cases hW

/-- Settles O8: the four widths, one by one. -/
theorem counterWidth : Obligations.CounterWidth := by
  refine ⟨rfl, fun W => ?_⟩
  cases W <;> decide

end Sys2Proof

/-! The fields of a packed word (R70), and the command that a request word spells (R77). -/

namespace Sys2Proof

section

variable {W : Width} (op : BitVec 2) {a b : Nat}

/-- R70: the packed number with its field `b` split off. -/
theorem packFields_eq_mul_add (a b : Nat) :
    packFields W op a b = 2 ^ W.bits * (2 ^ W.bits * op.toNat + a) + b := by
  rw [packFields, Nat.two_mul, Nat.pow_add]
  ring

/-- R70: the two lower fields of a packed word do not reach its opcode field. -/
theorem packFields_low_lt (ha : FitsWidth W a) (hb : FitsWidth W b) : a * 2 ^ W.bits + b < 2 ^ (2 * W.bits) := by
  have hsq : 2 ^ (2 * W.bits) = 2 ^ W.bits * 2 ^ W.bits := by rw [Nat.two_mul, Nat.pow_add]
  nlinarith

/-- R70: three fields of their own lengths fill a word of `2W + 2` bits. -/
theorem packFields_lt (ha : FitsWidth W a) (hb : FitsWidth W b) : packFields W op a b < 2 ^ W.wireBits := by
  have hlow := packFields_low_lt ha hb
  have hop := op.isLt
  have hfour : 2 ^ W.wireBits = 4 * 2 ^ (2 * W.bits) := by rw [Width.wireBits, Nat.pow_add, Nat.mul_comm]
  have hrow : (op.toNat + 1) * 2 ^ (2 * W.bits) ≤ 4 * 2 ^ (2 * W.bits) := Nat.mul_le_mul_right _ hop
  rw [Nat.add_mul] at hrow
  rw [packFields]
  omega

theorem toNat_packed (ha : FitsWidth W a) (hb : FitsWidth W b) :
    (BitVec.ofNat W.wireBits (packFields W op a b)).toNat = packFields W op a b := by
  rw [BitVec.toNat_ofNat, Nat.mod_eq_of_lt (packFields_lt op ha hb)]

/-- R70: the field `op` of a packed word. -/
theorem reqOp_packed (ha : FitsWidth W a) (hb : FitsWidth W b) :
    reqOp (BitVec.ofNat W.wireBits (packFields W op a b)) = op := by
  apply BitVec.eq_of_toNat_eq
  rw [reqOp, BitVec.extractLsb'_toNat, toNat_packed op ha hb, Nat.shiftRight_eq_div_pow, packFields, Nat.add_assoc,
    Nat.mul_comm op.toNat, Nat.mul_add_div (Nat.two_pow_pos _), Nat.div_eq_of_lt (packFields_low_lt ha hb),
    Nat.add_zero, Nat.mod_eq_of_lt op.isLt]

/-- R70: the field `a` of a packed word. -/
theorem reqA_packed (ha : FitsWidth W a) (hb : FitsWidth W b) :
    reqA (BitVec.ofNat W.wireBits (packFields W op a b)) = trunc W.bits a := by
  apply BitVec.eq_of_toNat_eq
  rw [reqA, BitVec.extractLsb'_toNat, toNat_packed op ha hb, Nat.shiftRight_eq_div_pow, packFields_eq_mul_add,
    Nat.mul_add_div (Nat.two_pow_pos _), Nat.div_eq_of_lt hb, Nat.add_zero, Nat.mul_add_mod]
  rfl

/-- R70: the field `b` of a packed word. -/
theorem reqB_packed (ha : FitsWidth W a) (hb : FitsWidth W b) :
    reqB (BitVec.ofNat W.wireBits (packFields W op a b)) = trunc W.bits b := by
  apply BitVec.eq_of_toNat_eq
  rw [reqB, BitVec.extractLsb'_toNat, toNat_packed op ha hb, Nat.shiftRight_zero, packFields_eq_mul_add,
    Nat.mul_add_mod]
  rfl

end

/-- R70, R71: a command is put together from its own opcode and fields. -/
@[simp] theorem ofFields_opcode_fields (i : Instr) : Instr.ofFields i.opcode i.fieldA i.fieldB = i := by
  cases i <;> rfl

/-- R77: the request word of a command of the core spells that command. -/
theorem decodeWord_encode {W : Width} {i : Instr} (h : i.WellFormed W) : decodeWord W (encode W i) = i := by
  obtain ⟨ha, hb⟩ := h
  rw [decodeWord, encode, reqOp_packed _ ha hb, reqA_packed _ ha hb, reqB_packed _ ha hb, Machine.trunc_toNat ha,
    Machine.trunc_toNat hb, ofFields_opcode_fields]

end Sys2Proof

/-! The command in progress: what one EXEC keeps (R24 to R26, R131) and how many EXEC steps are left (R190). -/

namespace Sys2Proof.Machine

/-! ## Which command is in progress -/

/-- R24: POLYDIV in progress, read off OP, A and B. -/
theorem current_eq_polydiv {W : Width} {r : Regs W} {d v : Nat} (h : current r = .polydiv d v) :
    r.op = 3 ∧ trunc W.bits d = r.a ∧ trunc W.bits v = r.b := by
  have hop : r.op = 3 := (current_eq_polydiv_iff r).mp ⟨d, v, h⟩
  have ha : r.a.toNat = d := (ofFields_fieldA r.op _ r.b.toNat).symm.trans (congrArg Instr.fieldA h)
  have hb : r.b.toNat = v := (ofFields_fieldB r.op r.a.toNat _).symm.trans (congrArg Instr.fieldB h)
  subst ha hb
  exact ⟨hop, trunc_toNat_of_word r.a, trunc_toNat_of_word r.b⟩

/-- R31: an EXEC leaves OP, A and B, and so the command in progress, as they are. -/
@[simp] theorem current_effect {W : Width} (i : Instr) (r : Regs W) : current (effect i r) = current r := by
  rcases effect_cases i r with ⟨_, h, _⟩ | ⟨_, _, h, _⟩ | ⟨_, _, _, _, _, h⟩ | ⟨_, _, _, _, _, h⟩ <;> rw [h] <;> rfl

/-- R126, R155: the outcome of a division by a nonzero divisor. -/
theorem answer_polydiv {W : Width} {d v : Nat} (hv : trunc W.bits v ≠ 0) :
    answer W (.polydiv d v) =
      .result (divRun (trunc W.bits d) (trunc W.bits v) (len (trunc W.bits d)) 1 0 0).1
        (divRun (trunc W.bits d) (trunc W.bits v) (len (trunc W.bits d)) 1 0 0).2 := by
  have hp : polydiv (trunc W.bits d) (trunc W.bits v) =
      .ok (divRun (trunc W.bits d) (trunc W.bits v) (len (trunc W.bits d)) 1 0 0) := if_neg hv
  simp only [answer, Instr.fieldA, Instr.fieldB, hp]

/-! ## The invariant of the registers -/

section

variable {W : Width} {r : Regs W}

theorem regsInv_iff_of_busy (h : r.phase = .busy) : RegsInv r ↔ BusyInv r := by
  simp [RegsInv, h]

theorem regsInv_iff_of_done (h : r.phase = .done) : RegsInv r ↔ response r = answer W (current r) := by
  simp [RegsInv, h]

theorem busyInv_iff_of_division (hop : r.op = 3) (hb : r.b ≠ 0) :
    BusyInv r ↔ 1 ≤ r.idx.toNat ∧ r.idx.toNat ≤ len r.a + 1 ∧
      (r.quot, r.acc) = divRun r.a r.b (r.idx.toNat - 1) 1 0 0 := by
  rw [BusyInv, if_pos ⟨hop, hb⟩]

/-- R30: the values that ISSUE writes are those of a command that has made no progress yet. -/
theorem busyInv_issueWord (word : Wire W) (r : Regs W) : BusyInv (issueWord word r) := by
  unfold BusyInv
  split
  · simp only [issueWord_idx, issueWord_a, issueWord_quot, issueWord_acc, counter_one]
    exact ⟨le_rfl, Nat.le_add_left 1 _, rfl⟩
  · exact ⟨rfl, rfl, rfl⟩

end

/-! ## The EXEC steps left -/

/-- R190: the number of EXEC steps that the command in progress still needs, a function of the registers: one for each
dividend bit from IDX on and the finishing step in a division by a nonzero divisor, one in every other command. -/
def execsLeft {W : Width} (r : Regs W) : Nat :=
  match r.phase with
  | .busy => if r.op = 3 ∧ r.b ≠ 0 then len r.a + 2 - r.idx.toNat else 1
  | _ => 0

section

variable {W : Width} {r : Regs W}

theorem execsLeft_of_division (h : r.phase = .busy) (hop : r.op = 3) (hb : r.b ≠ 0) :
    execsLeft r = len r.a + 2 - r.idx.toNat := by
  simp only [execsLeft, h]
  exact if_pos ⟨hop, hb⟩

/-- R190: a command in progress is not over before one more EXEC. -/
theorem execsLeft_pos (h : r.phase = .busy) (hinv : BusyInv r) : 0 < execsLeft r := by
  by_cases hdiv : r.op = 3 ∧ r.b ≠ 0
  · obtain ⟨hop, hb⟩ := hdiv
    obtain ⟨-, hle, -⟩ := (busyInv_iff_of_division hop hb).mp hinv
    rw [execsLeft_of_division h hop hb]
    omega
  · simp only [execsLeft, h]
    rw [if_neg hdiv]
    exact Nat.one_pos

/-- R190: no command needs more than `W + 1` EXEC steps. -/
theorem execsLeft_issueWord_le (word : Wire W) (r : Regs W) : execsLeft (issueWord word r) ≤ W.bits + 1 := by
  have hlen := len_le_width (reqA word)
  simp only [execsLeft, issueWord_phase, issueWord_op, issueWord_a, issueWord_b, issueWord_idx, counter_one]
  split <;> omega

/-- R25, R26, R123, R131: one more iteration of a division that is not over. -/
theorem advance_keeps_progress (hphase : r.phase = .busy) (hop : r.op = 3) (hb : r.b ≠ 0) (hinv : BusyInv r)
    (hidx : r.idx.toNat ≤ len r.a) :
    let next := advance (divStep r.a r.b r.idx.toNat r.quot r.acc).1 (divStep r.a r.b r.idx.toNat r.quot r.acc).2 r
    BusyInv next ∧ execsLeft next < execsLeft r := by
  intro next
  obtain ⟨hpos, -, hloop⟩ := (busyInv_iff_of_division hop hb).mp hinv
  have hnext : next.idx.toNat = r.idx.toNat + 1 := counter_succ r.idx (hidx.trans (len_le_width r.a))
  constructor
  · refine (busyInv_iff_of_division (r := next) hop hb).mpr ⟨by omega, ?_, ?_⟩
    · rw [hnext]
      exact Nat.succ_le_succ hidx
    · have hcount : next.idx.toNat - 1 = r.idx.toNat - 1 + 1 := by omega
      have hlast : 1 + (r.idx.toNat - 1) = r.idx.toNat := by omega
      rw [hcount]
      exact ((divRun_snoc r.a r.b (r.idx.toNat - 1) 1 0 0).trans (by rw [← hloop, hlast]; rfl)).symm
  · have hleft : execsLeft next = len r.a + 2 - next.idx.toNat := execsLeft_of_division (r := next) hphase hop hb
    rw [hleft, execsLeft_of_division hphase hop hb]
    omega

/-- R123, R125, R131: the finishing step responds with the result of the whole division. -/
theorem response_finish_division {d v : Nat} (hcur : current r = .polydiv d v) (hv : trunc W.bits v ≠ 0)
    (hinv : BusyInv r) (hidx : len (trunc W.bits d) < r.idx.toNat) :
    response (respond r.quot r.acc r) = answer W (current r) := by
  obtain ⟨hop, ha, hb⟩ := current_eq_polydiv hcur
  rw [hb] at hv
  obtain ⟨-, hle, hloop⟩ := (busyInv_iff_of_division hop hv).mp hinv
  have hall : r.idx.toNat - 1 = len r.a := by rw [ha] at hidx; omega
  rw [hall] at hloop
  rw [response_respond, hcur, answer_polydiv (hb ▸ hv), ha, hb, ← hloop]

/-- R31, R190: one EXEC of the command in progress either finishes it, with the outcome of its own operands, or brings
its end nearer. -/
theorem effect_finishes_or_progresses (hphase : r.phase = .busy) (hinv : BusyInv r) :
    ((effect (current r) r).phase = .done ∧ response (effect (current r) r) = answer W (current r)) ∨
    ((effect (current r) r).phase = .busy ∧ BusyInv (effect (current r) r) ∧
      execsLeft (effect (current r) r) < execsLeft r) := by
  rcases effect_cases (current r) r with
    ⟨c, he, hans⟩ | ⟨x, y, he, -, hans⟩ | ⟨d, v, hcur, hv, hidx, he⟩ | ⟨d, v, hcur, hv, hidx, he⟩
  case inl => exact .inl ⟨by rw [he]; rfl, by rw [he, hans, response_raise]⟩
  case inr.inl => exact .inl ⟨by rw [he]; rfl, by rw [he, hans, response_respond]⟩
  case inr.inr.inl => exact .inl ⟨by rw [he]; rfl, by rw [he, response_finish_division hcur hv hinv hidx]⟩
  case inr.inr.inr =>
    obtain ⟨hop, ha, hb⟩ := current_eq_polydiv hcur
    rw [ha, hb] at he
    rw [ha] at hidx
    rw [hb] at hv
    rw [he]
    exact .inr ⟨hphase, advance_keeps_progress hphase hop hv hinv hidx⟩

/-- R11, R25, R26, R131: an EXEC keeps the invariant of the registers. -/
theorem effect_keeps_regsInv (hphase : r.phase = .busy) (hinv : BusyInv r) : RegsInv (effect (current r) r) := by
  rcases effect_finishes_or_progresses hphase hinv with ⟨hdone, hresp⟩ | ⟨hbusy, hnext, -⟩
  · rw [regsInv_iff_of_done hdone, hresp, current_effect]
  · exact (regsInv_iff_of_busy hbusy).mpr hnext

end

end Sys2Proof.Machine

/-! A core left alone (R191): while nothing stands at the inputs a BUSY core goes on by itself and any other waits. -/

namespace Sys2Proof.Machine

/-- R31, R191: the registers after an instant at which the host does nothing. -/
def coast {W : Width} (r : Regs W) : Regs W :=
  match r.phase with
  | .busy => effect (current r) r
  | _ => r

section

variable {W : Width} {r : Regs W}

theorem coast_of_busy (h : r.phase = .busy) : coast r = effect (current r) r := by
  simp [coast, h]

theorem coast_of_not_busy (h : r.phase ≠ .busy) : coast r = r := by
  cases hphase : r.phase with
  | idle => simp [coast, hphase]
  | busy => exact absurd hphase h
  | done => simp [coast, hphase]

theorem coast_iterate_of_done (h : r.phase = .done) (n : Nat) : coast^[n] r = r :=
  Function.iterate_fixed (coast_of_not_busy (by simp [h])) n

/-- R190, R11: left alone for as many steps as it still needs, a core that has a command ends DONE with the outcome of
that command's own operands. -/
theorem coast_iterate_finishes (n : Nat) : ∀ r : Regs W, r.phase = .busy → BusyInv r → execsLeft r ≤ n →
    (coast^[n] r).phase = .done ∧ response (coast^[n] r) = answer W (current r) := by
  induction n with
  | zero =>
    intro r hphase hinv hleft
    exact absurd (execsLeft_pos hphase hinv) (Nat.not_lt.mpr hleft)
  | succ n ih =>
    intro r hphase hinv hleft
    rw [Function.iterate_succ_apply, coast_of_busy hphase]
    rcases effect_finishes_or_progresses hphase hinv with ⟨hdone, hresp⟩ | ⟨hbusy, hnext, hless⟩
    · rw [coast_iterate_of_done hdone]
      exact ⟨hdone, hresp⟩
    · have hrest := ih _ hbusy hnext (by omega)
      rwa [current_effect] at hrest

end

/-! ## The steps of the machine -/

section

variable {s : State}

/-- R29, R30: an IDLE core accepts an offered request word. -/
theorem eventNow_of_offer {word : Wire s.width} (hphase : s.regs.phase = .idle) (hrst : (edgeNow s).rst = false)
    (hreq : (edgeNow s).req = some word) : eventNow s = some (.issue word) := by
  simp [eventNow, eventAt, hphase, hrst, hreq]

/-- R29, R32: a DONE core hands its response to a host that takes it. -/
theorem eventNow_of_take (hphase : s.regs.phase = .done) (hrst : (edgeNow s).rst = false)
    (hready : (edgeNow s).rspReady = true) : eventNow s = some .collect := by
  simp [eventNow, eventAt, hphase, hrst, hready]

/-- R168: the machine never stops. -/
theorem step_answers (s : State) : ∃ t, step s = .next t := by
  rcases step_cases s with ⟨_, h⟩ | ⟨_, _, _, h⟩ | ⟨_, _, h⟩ | ⟨_, _, h⟩ | ⟨_, h⟩ <;> exact ⟨_, h⟩

/-- R29: with no event a step moves the host on and changes nothing else. -/
theorem step_of_no_event (h : eventNow s = none) : step s = .next { s with inputs := s.inputs.tail } := by
  rw [step, h]
  rfl

/-- R30: a step at which a request word is issued. -/
theorem step_of_issue {word : Wire s.width} (h : eventNow s = some (.issue word)) :
    step s = .next { s with regs := issueWord word s.regs, inputs := s.inputs.tail } := by
  rw [step, h]
  rfl

/-- R31: a step at which the core performs an EXEC of the command in progress. -/
theorem step_of_exec (h : eventNow s = some .exec) :
    step s = .next { s with regs := effect (current s.regs) s.regs, inputs := s.inputs.tail } := by
  rw [step, h]
  exact exec_eq_effect (s := advanceHost s) (current_wellFormed s.regs)

/-- R32: a step at which the host collects the response. -/
theorem step_of_collect (h : eventNow s = some .collect) :
    step s = .next
      { s with
        regs := release s.regs
        inputs := s.inputs.tail
        received := s.received ++ [response s.regs] } := by
  rw [step, h]
  rfl

end

/-- R29, R191: with nothing at the inputs only a BUSY core has an event, its own EXEC. -/
theorem eventAt_quiet {W : Width} (r : Regs W) :
    eventAt Edge.quiet r = if r.phase = .busy then some .exec else none := by
  cases h : r.phase <;> simp [eventAt, Edge.quiet, h]

/-- R191: a step at which the host does nothing. -/
theorem step_of_quiet {s : State} (h : edgeNow s = Edge.quiet) :
    step s = .next { s with regs := coast s.regs, inputs := s.inputs.tail } := by
  have hevent : eventNow s = if s.regs.phase = .busy then some .exec else none := by
    rw [eventNow, h, eventAt_quiet]
  by_cases hphase : s.regs.phase = .busy
  · rw [if_pos hphase] at hevent
    rw [coast_of_busy hphase]
    exact step_of_exec hevent
  · rw [if_neg hphase] at hevent
    rw [coast_of_not_busy hphase]
    exact step_of_no_event hevent

theorem runSteps_add {m : Nat} (n : Nat) : ∀ {s t : State}, runSteps m s = .next t →
    runSteps (m + n) s = runSteps n t := by
  induction m with
  | zero =>
    intro s t h
    cases h
    rw [Nat.zero_add]
  | succ m ih =>
    intro s t h
    obtain ⟨u, hu⟩ := step_answers s
    rw [runSteps_succ_of_next hu] at h
    rw [Nat.add_right_comm, runSteps_succ_of_next hu]
    exact ih h

/-- R191: a run in which the host does nothing for `n` instants. -/
theorem runSteps_quiet (n : Nat) : ∀ {s : State} {rest : List (Edge s.width)},
    s.inputs = List.replicate n Edge.quiet ++ rest →
    runSteps n s = .next { s with regs := coast^[n] s.regs, inputs := rest } := by
  induction n with
  | zero =>
    rintro ⟨_, _, _, _, _⟩ rest rfl
    rfl
  | succ n ih =>
    intro s rest h
    have hquiet : edgeNow s = Edge.quiet := by simp [edgeNow, h, List.replicate_succ]
    rw [runSteps_succ_of_next (step_of_quiet hquiet), Function.iterate_succ_apply]
    exact ih (by simp [h, List.replicate_succ])

end Sys2Proof.Machine

/-! One command as a host performs it (R81): ISSUE, the core's own steps, COLLECT. -/

namespace Sys2Proof.Machine

/-- R30, R190: the registers `W + 1` quiet instants after ISSUE of a request word. -/
def finishedRegs {W : Width} (word : Wire W) (r : Regs W) : Regs W := coast^[W.bits + 1] (issueWord word r)

/-- R190, R11: by then the command of the word is finished, with the outcome of its own operands, whatever the registers
held before ISSUE. -/
theorem finishedRegs_spec {W : Width} (word : Wire W) (r : Regs W) :
    (finishedRegs word r).phase = .done ∧ response (finishedRegs word r) = answer W (decodeWord W word) :=
  coast_iterate_finishes (W.bits + 1) (issueWord word r) rfl (busyInv_issueWord word r) (execsLeft_issueWord_le word r)

/-- R81: the run in which the host offers a request word to an IDLE core, leaves it `W + 1` instants and collects. -/
theorem runSteps_commandInputs {s : State} (hidle : s.regs.phase = .idle) (word : Wire s.width) :
    runSteps (s.width.bits + 3) { s with inputs := commandInputs s.width word } =
      .next
        { s with
          regs := release (finishedRegs word s.regs)
          inputs := []
          received := s.received ++ [answer s.width (decodeWord s.width word)] } := by
  obtain ⟨hdone, hresponse⟩ := finishedRegs_spec word s.regs
  have hissue := step_of_issue
    (eventNow_of_offer (s := { s with inputs := commandInputs s.width word }) hidle rfl rfl)
  have hrun := runSteps_quiet (s.width.bits + 1)
    (s := { s with regs := issueWord word s.regs, inputs := (commandInputs s.width word).tail }) rfl
  have hcollect := step_of_collect
    (eventNow_of_take
      (s := { s with
        regs := finishedRegs word s.regs
        inputs := [{ (Edge.quiet : Edge s.width) with rspReady := true }] }) hdone rfl rfl)
  rw [← hresponse]
  exact (runSteps_succ_of_next hissue _).trans ((runSteps_add 1 hrun).trans (runSteps_succ_of_next hcollect 0))

/-- Settles O50: ISSUE overwrites whatever the working registers held, so the command that the word spells ends with the
outcome of its own operands; and the word offered is the one that spells `i`. -/
theorem commandAnsweredFromAnyIdleState : Obligations.CommandAnsweredFromAnyIdleState := by
  intro s i hidle hwf
  refine ⟨release (finishedRegs (encode s.width i) s.regs), rfl, ?_⟩
  rw [afterCommand, runSteps_commandInputs hidle, decodeWord_encode hwf]

end Sys2Proof.Machine

/-! The events of an instant and the steps they make (R29 to R32, R180, R185). -/

namespace Sys2Proof.Machine

/-! ## Which event happens -/

section

variable {W : Width} {r : Regs W}

theorem eventAt_of_idle (h : r.phase = .idle) (e : Edge W) :
    eventAt e r = if e.rst then some .reset else e.req.map .issue := by
  simp [eventAt, h]

theorem eventAt_of_busy (h : r.phase = .busy) (e : Edge W) :
    eventAt e r = if e.rst then some .reset else if e.run then some .exec else none := by
  simp [eventAt, h]

theorem eventAt_of_done (h : r.phase = .done) (e : Edge W) :
    eventAt e r = if e.rst then some .reset else if e.rspReady then some .collect else none := by
  simp [eventAt, h]

/-- R29: of the registers PHASE alone says which event happens. -/
theorem eventAt_congr_phase {r' : Regs W} (h : r'.phase = r.phase) (e : Edge W) : eventAt e r' = eventAt e r := by
  simp [eventAt, h]

end

/-! ## The steps -/

section

variable {s : State}

/-- R180: a step at which the host resets the core. -/
theorem step_of_reset (h : eventNow s = some .reset) :
    step s = .next
      { s with regs := scramble s.width s.resets, inputs := s.inputs.tail, resets := s.resets + 1 } := by
  rw [step, h]
  rfl

/-- R29: inputs that make the same event happen make the same step. -/
theorem step_of_same_event {e : Edge s.width} (h : eventAt e s.regs = eventNow s) :
    step { s with inputs := e :: s.inputs.tail } = step s :=
  congrArg (perform (advanceHost s)) h

end

/-- Settles O37: an IDLE core accepts the offered word. -/
theorem stepIssues : Obligations.StepIssues := by
  intro s word hphase hrst hreq
  exact step_of_issue (eventNow_of_offer hphase hrst hreq)

/-- Settles O38: a DONE core hands over its response. -/
theorem stepCollects : Obligations.StepCollects := by
  intro s hphase hrst hready
  exact step_of_collect (eventNow_of_take hphase hrst hready)

/-- Settles O35: the event of such an instant is EXEC, which runs the command in OP, A and B. -/
theorem stepRunsTheDecodedCommand : Obligations.StepRunsTheDecodedCommand := by
  refine ⟨fun s hphase hrst hrun => ?_, fun W word r => current_issueWord word r⟩
  have hevent : eventNow s = some .exec := by simp [eventNow, eventAt_of_busy hphase, hrst, hrun]
  rw [step, hevent]
  rfl

/-- Settles O40: in each phase the event is looked up at one input (beside RESET); without it there is no event, and the
other inputs make no difference. -/
theorem disabledEventsDoNothing : Obligations.DisabledEventsDoNothing := by
  intro s hrst
  refine ⟨fun hphase hreq => ?_, fun hphase hrun => ?_, fun hphase hready => ?_, fun x y hphase => ?_,
    fun x y hphase => ?_⟩
  · exact step_of_no_event (by simp [eventNow, eventAt_of_idle hphase, hrst, hreq])
  · exact step_of_no_event (by simp [eventNow, eventAt_of_busy hphase, hrst, hrun])
  · exact step_of_no_event (by simp [eventNow, eventAt_of_done hphase, hrst, hready])
  · exact step_of_same_event (by simp only [eventNow, eventAt_of_busy hphase])
  · exact step_of_same_event (by simp only [eventNow, eventAt_of_done hphase])

end Sys2Proof.Machine

/-! The outputs (R39) and the status registers behind them (R28). -/

namespace Sys2Proof.Machine

/-- R150: the code 0 is the only one that is no cause. -/
theorem ofCode_eq_none_iff (c : BitVec 2) : InvalidArgument.ofCode c = none ↔ c = 0 := by
  revert c
  decide

section

variable {W : Width} (r : Regs W)

theorem ready_iff : ready r = true ↔ r.phase = .idle := decide_eq_true_iff

theorem valid_iff : valid r = true ↔ r.phase = .done := decide_eq_true_iff

theorem outputs_rsp : (outputs r).rsp = if r.phase = .done then some (response r) else none := by
  simp only [outputs, valid_iff]

/-- R28, R74: with CAUSE 0 the response is the result in RES0 and RES1. -/
theorem response_of_cause_zero (h : r.cause = 0) : response r = .result r.res0 r.res1 := by
  simp [response, Response.ofFields, (ofCode_eq_none_iff r.cause).mpr h]

/-- R28, R76: the response is a failure exactly when CAUSE is not 0. -/
theorem response_failure_iff : (∃ c, response r = .failure c) ↔ r.cause ≠ 0 := by
  constructor
  · rintro ⟨c, hfail⟩ hzero
    rw [response_of_cause_zero r hzero] at hfail
    cases hfail
  · intro hcause
    obtain ⟨c, hc⟩ := Option.ne_none_iff_exists'.mp (mt (ofCode_eq_none_iff r.cause).mp hcause)
    exact ⟨c, by simp [response, Response.ofFields, hc]⟩

end

/-- Settles O45: each output is a test on PHASE, and CAUSE alone decides between result and failure. -/
theorem outputsFollowPhase : Obligations.OutputsFollowPhase := fun _ r =>
  ⟨ready_iff r, valid_iff r, rfl, rfl, outputs_rsp r, response_failure_iff r, response_of_cause_zero r⟩

/-- Settles O46: by PHASE of the start state. -/
theorem runStartsIdle : Obligations.RunStartsIdle := fun _ => ⟨rfl, rfl, rfl⟩

end Sys2Proof.Machine

/-! The frame of one EXEC (R24, R28, R158) and of one step (R22, R23, R24, R28). -/

namespace Sys2Proof.Machine

/-! ## What one EXEC leaves unchanged -/

section

variable {W : Width} (i : Instr) (r : Regs W)

/-- R24: an EXEC writes none of OP, A and B. -/
theorem effect_keeps_latches : (effect i r).op = r.op ∧ (effect i r).a = r.a ∧ (effect i r).b = r.b := by
  rcases effect_cases i r with ⟨_, h, _⟩ | ⟨_, _, h, _⟩ | ⟨_, _, _, _, _, h⟩ | ⟨_, _, _, _, _, h⟩ <;>
    rw [h] <;> exact ⟨rfl, rfl, rfl⟩

/-- R28, R123, R158: an EXEC either ends the command, and then the working registers stay, and the results too if it
raises; or it is an iteration of POLYDIV, and then the status stays and IDX counts up. -/
theorem effect_ends_or_iterates :
    ((effect i r).phase = .done ∧ (effect i r).quot = r.quot ∧ (effect i r).acc = r.acc ∧ (effect i r).idx = r.idx ∧
      ((effect i r).cause ≠ 0 → (effect i r).res0 = r.res0 ∧ (effect i r).res1 = r.res1)) ∨
    ((∃ d v, i = .polydiv d v) ∧ (effect i r).phase = r.phase ∧ (effect i r).cause = r.cause ∧
      (effect i r).res0 = r.res0 ∧ (effect i r).res1 = r.res1 ∧ (effect i r).idx = r.idx + 1) := by
  rcases effect_cases i r with ⟨c, h, _⟩ | ⟨x, y, h, _⟩ | ⟨_, _, _, _, _, h⟩ | ⟨d, v, hi, _, _, h⟩ <;> rw [h]
  case inl => exact .inl ⟨rfl, rfl, rfl, rfl, fun _ => ⟨rfl, rfl⟩⟩
  case inr.inl => exact .inl ⟨rfl, rfl, rfl, rfl, fun hcause => absurd rfl hcause⟩
  case inr.inr.inl => exact .inl ⟨rfl, rfl, rfl, rfl, fun hcause => absurd rfl hcause⟩
  case inr.inr.inr => exact .inr ⟨⟨d, v, hi⟩, rfl, rfl, rfl, rfl, rfl⟩

end

/-- R72: a term with an operand that is no `W`-bit number is refused. -/
theorem exec_of_not_wellFormed {i : Instr} {s : State} (h : ¬ i.WellFormed s.width) :
    exec i s = .refused .operandTooWide := by
  cases i <;> exact if_neg h

/-- R31: an EXEC that answers a state is the effect of its command on the registers. -/
theorem eq_effect_of_exec {i : Instr} {s t : State} (h : exec i s = .next t) :
    t = { s with regs := effect i s.regs } := by
  by_cases hwf : i.WellFormed s.width
  · rw [exec_eq_effect hwf] at h
    exact (Host.Outcome.next.inj h).symm
  · rw [exec_of_not_wellFormed hwf] at h
    cases h

/-- Settles O23: an EXEC that answers is `effect`, and that has the frame. -/
theorem execFrame : Obligations.ExecFrame := by
  intro s t i hexec
  obtain ⟨hop, ha, hb⟩ := effect_keeps_latches i s.regs
  exact ⟨effect i s.regs, eq_effect_of_exec hexec, hop, ha, hb, effect_ends_or_iterates i s.regs⟩

/-! ## PHASE -/

/-- R23, R126: an EXEC of the command in progress keeps PHASE if it is an iteration of a division that is not over;
every other EXEC moves it to DONE. -/
theorem effect_current_phase {W : Width} (r : Regs W) :
    (effect (current r) r).phase = if r.op = 3 ∧ r.b ≠ 0 ∧ r.idx.toNat ≤ len r.a then r.phase else .done := by
  by_cases hop : r.op = 3
  · rw [effect_current_of_op_three hop]
    rcases polydivRegs_cases r.a r.b r with ⟨hb, h⟩ | ⟨hb, hidx, h⟩ | ⟨hb, hidx, h⟩ <;> rw [h]
    · rw [if_neg fun ⟨_, hne, _⟩ => hne hb, raise_phase]
    · rw [if_pos ⟨hop, hb, hidx⟩, advance_phase]
    · rw [if_neg fun ⟨_, _, hle⟩ => Nat.not_le.mpr hidx hle, respond_phase]
  · rw [if_neg fun ⟨hthree, _⟩ => hop hthree]
    rcases effect_ends_or_iterates (current r) r with ⟨hdone, _⟩ | ⟨hpolydiv, _⟩
    · exact hdone
    · exact absurd ((current_eq_polydiv_iff r).mp hpolydiv) hop

/-- Settles O42: one event after the other; for EXEC by the phase that the command in progress leaves. -/
theorem phaseMoves : Obligations.PhaseMoves := by
  intro s t hstep
  rcases step_cases s with ⟨hev, h⟩ | ⟨word, hev, hphase, h⟩ | ⟨hev, hphase, h⟩ | ⟨hev, hphase, h⟩ | ⟨hev, h⟩ <;>
    obtain rfl := Host.Outcome.next.inj (h.symm.trans hstep)
  case inl => exact .inl ⟨hev, rfl⟩
  case inr.inl => exact .inr (.inl ⟨hphase, rfl, word, hev⟩)
  case inr.inr.inl =>
    have hnext := effect_current_phase s.regs
    by_cases hiter : s.regs.op = 3 ∧ s.regs.b ≠ 0 ∧ s.regs.idx.toNat ≤ len s.regs.a
    · rw [if_pos hiter, hphase] at hnext
      exact .inr (.inr (.inl ⟨hphase, hnext, hev, hiter⟩))
    · rw [if_neg hiter] at hnext
      exact .inr (.inr (.inr (.inl ⟨hphase, hnext, hev, hiter⟩)))
  case inr.inr.inr.inl => exact .inr (.inr (.inr (.inr (.inl ⟨hphase, rfl, hev⟩))))
  case inr.inr.inr.inr => exact .inr (.inr (.inr (.inr (.inr ⟨rfl, hev⟩))))

/-! ## The other registers -/

/-- Settles O43: of the three events left, EXEC has the frame of `effect`, and COLLECT and no event write none of these
registers. -/
theorem latchesHeldDuringACommand : Obligations.LatchesHeldDuringACommand := by
  intro s hbusy hnoreset
  rcases step_cases s with ⟨_, h⟩ | ⟨_, _, hidle, _⟩ | ⟨_, hphase, h⟩ | ⟨_, _, h⟩ | ⟨hreset, _⟩
  · exact ⟨s.regs, s.received, h, rfl, rfl, rfl, .inl rfl⟩
  · exact absurd hidle hbusy
  · obtain ⟨hop, ha, hb⟩ := effect_keeps_latches (current s.regs) s.regs
    refine ⟨_, s.received, h, hop, ha, hb, ?_⟩
    rcases effect_ends_or_iterates (current s.regs) s.regs with ⟨_, _, _, hidx, _⟩ | ⟨_, _, _, _, _, hidx⟩
    · exact .inl hidx
    · exact .inr ⟨hphase, hidx⟩
  · exact ⟨release s.regs, _, h, rfl, rfl, rfl, .inl rfl⟩
  · exact absurd hreset hnoreset

/-- Settles O44: of the events, EXEC alone can write the status, and only where it ends the command. -/
theorem statusWrittenOnlyAtTheEnd : Obligations.StatusWrittenOnlyAtTheEnd := by
  intro s hnoreset
  rcases step_cases s with ⟨_, h⟩ | ⟨word, _, _, h⟩ | ⟨hexec, _, h⟩ | ⟨_, _, h⟩ | ⟨hreset, _⟩
  · exact ⟨s.regs, s.received, h, .inl ⟨rfl, rfl, rfl⟩⟩
  · exact ⟨issueWord word s.regs, s.received, h, .inl ⟨rfl, rfl, rfl⟩⟩
  · refine ⟨_, s.received, h, ?_⟩
    rcases effect_ends_or_iterates (current s.regs) s.regs with
      ⟨hdone, _, _, _, hresults⟩ | ⟨_, _, hcause, hres0, hres1, _⟩
    · exact .inr ⟨hexec, hdone, hresults⟩
    · exact .inl ⟨hcause, hres0, hres1⟩
  · exact ⟨release s.regs, _, h, .inl ⟨rfl, rfl, rfl⟩⟩
  · exact absurd hreset hnoreset

end Sys2Proof.Machine

/-! The invariant of the machine under every step (R11, R25, R26, R131). -/

namespace Sys2Proof.Machine

/-- Settles O48: ISSUE starts the progress, EXEC keeps it or ends it with the outcome of the operands, and after COLLECT
and RESET the core is IDLE, where the invariant asks nothing. -/
theorem stepKeepsInv : Obligations.StepKeepsInv := by
  intro s t hinv hstep
  rcases step_cases s with ⟨_, h⟩ | ⟨word, _, _, h⟩ | ⟨_, hphase, h⟩ | ⟨_, _, h⟩ | ⟨_, h⟩ <;>
    obtain rfl := Host.Outcome.next.inj (h.symm.trans hstep)
  case inl => exact hinv
  case inr.inl => exact (regsInv_iff_of_busy (issueWord_phase s.regs word)).mpr (busyInv_issueWord word s.regs)
  case inr.inr.inl => exact effect_keeps_regsInv hphase ((regsInv_iff_of_busy hphase).mp hinv)
  case inr.inr.inr.inl => exact trivial
  case inr.inr.inr.inr => exact trivial

end Sys2Proof.Machine

/-! Two cores that differ only in registers that are written before they are read (R35, R38). -/

namespace Sys2Proof.Machine

/-! ## Agreement on the live registers -/

section

variable {W : Width} {r r' : Regs W}

theorem sameLive_iff_of_busy (h : r.phase = .busy) :
    SameLive r r' ↔ r'.phase = .busy ∧ r'.op = r.op ∧ r'.a = r.a ∧ r'.b = r.b ∧ r'.quot = r.quot ∧
      r'.acc = r.acc ∧ r'.idx = r.idx := by
  simp only [SameLive, h]

theorem sameLive_iff_of_done (h : r.phase = .done) :
    SameLive r r' ↔ r'.phase = .done ∧ response r' = response r := by
  simp only [SameLive, h]

theorem SameLive.phase_eq (h : SameLive r r') : r'.phase = r.phase := by
  cases hphase : r.phase with
  | idle => simpa only [SameLive, hphase] using h
  | busy => exact ((sameLive_iff_of_busy hphase).mp h).1
  | done => exact ((sameLive_iff_of_done hphase).mp h).1

/-- R39: the outputs show PHASE and, while DONE, the response. -/
theorem SameLive.outputs_eq (h : SameLive r r') : outputs r = outputs r' := by
  have hphase := h.phase_eq
  by_cases hdone : r.phase = .done
  · have hresponse := ((sameLive_iff_of_done hdone).mp h).2
    simp [outputs, ready, valid, hphase, hdone, hresponse]
  · simp [outputs, ready, valid, hphase, hdone]

/-- R31, R38: on registers that agree on QUOT, ACC and IDX an EXEC of a command does the same: it raises the same cause,
responds with the same result, or makes the same iteration. -/
theorem effect_alike (i : Instr) (hquot : r'.quot = r.quot) (hacc : r'.acc = r.acc) (hidx : r'.idx = r.idx) :
    (∃ c, effect i r = raise c r ∧ effect i r' = raise c r') ∨
    (∃ x y, effect i r = respond x y r ∧ effect i r' = respond x y r') ∨
    (∃ q k, effect i r = advance q k r ∧ effect i r' = advance q k r') := by
  cases i with
  | bitlen n unused =>
    by_cases hn : trunc W.bits n = 0
    · exact .inl ⟨_, if_pos hn, if_pos hn⟩
    · exact .inr (.inl ⟨_, _, if_neg hn, if_neg hn⟩)
  | bitat value index =>
    by_cases hv : trunc W.bits value = 0
    · exact .inl ⟨_, if_pos hv, if_pos hv⟩
    · by_cases hi : trunc W.bits index = 0 ∨ len (trunc W.bits value) < (trunc W.bits index).toNat
      · exact .inl ⟨_, (if_neg hv).trans (if_pos hi), (if_neg hv).trans (if_pos hi)⟩
      · exact .inr (.inl ⟨_, _, (if_neg hv).trans (if_neg hi), (if_neg hv).trans (if_neg hi)⟩)
  | extend message degree => exact .inr (.inl ⟨_, _, rfl, rfl⟩)
  | polydiv dividend divisor =>
    simp only [effect, polydivRegs, hquot, hacc, hidx]
    split
    · exact .inl ⟨_, rfl, rfl⟩
    · split
      · exact .inr (.inr ⟨_, _, rfl, rfl⟩)
      · exact .inr (.inl ⟨_, _, rfl, rfl⟩)

/-- R30: ISSUE writes every register that the command reads. -/
theorem sameLive_issueWord (word : Wire W) (r r' : Regs W) : SameLive (issueWord word r) (issueWord word r') :=
  ⟨rfl, rfl, rfl, rfl, rfl, rfl, rfl⟩

/-- R31, R38: an EXEC of the command in progress keeps the agreement. -/
theorem SameLive.effect_current (h : SameLive r r') (hphase : r.phase = .busy) :
    SameLive (effect (current r) r) (effect (current r') r') := by
  obtain ⟨hphase', hop, ha, hb, hquot, hacc, hidx⟩ := (sameLive_iff_of_busy hphase).mp h
  rw [current_congr hop ha hb]
  rcases effect_alike (current r) hquot hacc hidx with ⟨c, e, e'⟩ | ⟨x, y, e, e'⟩ | ⟨q, k, e, e'⟩ <;> rw [e, e']
  · exact (sameLive_iff_of_done (raise_phase r c)).mpr ⟨rfl, by simp only [response_raise]⟩
  · exact ⟨rfl, rfl⟩
  · exact (sameLive_iff_of_busy (r := advance q k r) hphase).mpr
      ⟨hphase', hop, ha, hb, rfl, rfl, by rw [advance_idx, advance_idx, hidx]⟩

end

/-! ## Two runs side by side -/

/-- Two cores of width `W` with the same host, which has received the same, that agree on the live registers. -/
inductive Twins (W : Width) : State → State → Prop where
  | mk {r r' : Regs W} {ins : List (Edge W)} {got : List (Response W)} {k k' : Nat} (live : SameLive r r') :
    Twins W { width := W, regs := r, inputs := ins, received := got, resets := k }
      { width := W, regs := r', inputs := ins, received := got, resets := k' }

/-- R35, R38: PHASE lets the same event happen in both cores, and every event keeps the agreement. -/
theorem Twins.exists_step {W : Width} {s s' : State} (h : Twins W s s') :
    ∃ t t', step s = .next t ∧ step s' = .next t' ∧ Twins W t t' := by
  obtain @⟨r, r', ins, got, k, k', live⟩ := h
  have hsame := eventAt_congr_phase live.phase_eq (ins.headD Edge.quiet)
  rcases step_cases { width := W, regs := r, inputs := ins, received := got, resets := k } with
    ⟨hev, h⟩ | ⟨word, hev, _, h⟩ | ⟨hev, hphase, h⟩ | ⟨hev, hphase, h⟩ | ⟨hev, h⟩
  · exact ⟨_, _, h, step_of_no_event (hsame.trans hev), ⟨live⟩⟩
  · exact ⟨_, _, h, step_of_issue (hsame.trans hev), ⟨sameLive_issueWord word r r'⟩⟩
  · exact ⟨_, _, h, step_of_exec (hsame.trans hev), ⟨live.effect_current hphase⟩⟩
  · have hcollect := step_of_collect (s := { width := W, regs := r', inputs := ins, received := got, resets := k' })
      (hsame.trans hev)
    rw [((sameLive_iff_of_done hphase).mp live).2] at hcollect
    exact ⟨_, _, h, hcollect, ⟨rfl⟩⟩
  · exact ⟨_, _, h, step_of_reset (hsame.trans hev), ⟨rfl⟩⟩

theorem Twins.exists_runSteps {W : Width} (n : Nat) : ∀ {s s' : State}, Twins W s s' →
    ∃ t t', runSteps n s = .next t ∧ runSteps n s' = .next t' ∧ Twins W t t' := by
  induction n with
  | zero => exact fun h => ⟨_, _, rfl, rfl, h⟩
  | succ n ih =>
    intro s s' h
    obtain ⟨u, u', hu, hu', hnext⟩ := h.exists_step
    rw [runSteps_succ_of_next hu, runSteps_succ_of_next hu']
    exact ih hnext

/-- Settles O53: twins stay twins in every number of steps, and twins have the same outputs. -/
theorem unspecifiedValuesNeverSeen : Obligations.UnspecifiedValuesNeverSeen := by
  intro W r r' ins got k k' n hlive
  have htwins : Twins W ⟨W, r, ins, got, k⟩ ⟨W, r', ins, got, k'⟩ := ⟨hlive⟩
  obtain ⟨_, _, hrun, hrun', ⟨live⟩⟩ := htwins.exists_runSteps n
  exact ⟨_, _, _, _, _, _, hrun, hrun', live.outputs_eq, live⟩

end Sys2Proof.Machine

/-! The order of commands and responses (R58): what has been issued is what has been answered and at most one more. -/

namespace Sys2Proof.Machine

/-! ## The commands issued and the command in progress -/

/-- R24, R58: the command issued whose response has not been collected, if there is one. -/
def unanswered {W : Width} (r : Regs W) : List Instr := if r.phase = .idle then [] else [current r]

/-- R30: the command issued at this instant, if there is one. -/
def issuedNow (s : State) : List Instr :=
  match eventNow s with
  | some (.issue word) => [decodeWord s.width word]
  | _ => []

section

variable {W : Width} {r : Regs W}

theorem unanswered_of_idle (h : r.phase = .idle) : unanswered r = [] := if_pos h

theorem unanswered_of_not_idle (h : r.phase ≠ .idle) : unanswered r = [current r] := if_neg h

theorem unanswered_eq_nil_iff : unanswered r = [] ↔ r.phase = .idle := by
  simp [unanswered]

theorem length_unanswered_le : (unanswered r).length ≤ 1 := by
  unfold unanswered
  split <;> simp

/-- R23: no EXEC makes the core IDLE. -/
theorem effect_phase_ne_idle (h : r.phase = .busy) : (effect (current r) r).phase ≠ .idle := by
  rw [effect_current_phase, h]
  split <;> simp

/-- R31: an EXEC neither answers the command in progress nor makes it another one. -/
theorem unanswered_effect_current (h : r.phase = .busy) : unanswered (effect (current r) r) = unanswered r := by
  rw [unanswered_of_not_idle (effect_phase_ne_idle h), unanswered_of_not_idle (by simp [h]), current_effect]

end

section

variable {s : State}

theorem issuedNow_of_issue {word : Wire s.width} (h : eventNow s = some (.issue word)) :
    issuedNow s = [decodeWord s.width word] := by
  simp only [issuedNow, h]

theorem issuedNow_eq_nil (h : ∀ word, eventNow s ≠ some (.issue word)) : issuedNow s = [] := by
  unfold issuedNow
  split
  · exact absurd ‹_› (h _)
  · rfl

theorem issuedIn_succ_of_next {t : State} (h : step s = .next t) (n : Nat) :
    issuedIn (n + 1) s = issuedNow s ++ issuedIn n t := by
  change issuedNow s ++ _ = _
  simp only [h]

/-- R180: a host that does not reset makes no RESET happen. -/
theorem eventNow_ne_reset (h : (edgeNow s).rst = false) : eventNow s ≠ some .reset := by
  cases hphase : s.regs.phase <;> simp [eventNow, eventAt, hphase, h]

/-- R191: nor does a host with nothing more to do. -/
theorem edgeNow_rst_eq_false (h : ∀ e ∈ s.inputs, e.rst = false) : (edgeNow s).rst = false := by
  cases hinputs : s.inputs with
  | nil => simp [edgeNow, hinputs, Edge.quiet]
  | cons e rest =>
    have he : e.rst = false := h e (by simp [hinputs])
    simpa [edgeNow, hinputs] using he

/-! ## One step and many -/

/-- R58: one step without RESET. The commands unanswered before it and issued at it are, in that order, those answered at
it and unanswered after it, and the host receives the outcomes of those answered. -/
theorem exists_step_answers_in_order (hinv : RegsInv s.regs) (hreset : eventNow s ≠ some .reset) :
    ∃ (r : Regs s.width) (answered : List Instr),
      step s = .next
        { s with
          regs := r
          inputs := s.inputs.tail
          received := s.received ++ answered.map (answer s.width) } ∧
      RegsInv r ∧ unanswered s.regs ++ issuedNow s = answered ++ unanswered r := by
  rcases step_cases s with
    ⟨hev, -⟩ | ⟨word, hev, hphase, -⟩ | ⟨hev, hphase, -⟩ | ⟨hev, hphase, -⟩ | ⟨hev, -⟩
  case inl =>
    refine ⟨s.regs, [], by simpa using step_of_no_event hev, hinv, ?_⟩
    rw [issuedNow_eq_nil (by simp [hev]), List.append_nil, List.nil_append]
  case inr.inl =>
    refine ⟨issueWord word s.regs, [], by simpa using step_of_issue hev, ?_, ?_⟩
    · exact (regsInv_iff_of_busy (issueWord_phase s.regs word)).mpr (busyInv_issueWord word s.regs)
    · rw [unanswered_of_idle hphase, issuedNow_of_issue hev, unanswered_of_not_idle (by simp), current_issueWord]
  case inr.inr.inl =>
    refine ⟨effect (current s.regs) s.regs, [], by simpa using step_of_exec hev, ?_, ?_⟩
    · exact effect_keeps_regsInv hphase ((regsInv_iff_of_busy hphase).mp hinv)
    · rw [issuedNow_eq_nil (by simp [hev]), unanswered_effect_current hphase, List.append_nil, List.nil_append]
  case inr.inr.inr.inl =>
    have hresponse : response s.regs = answer s.width (current s.regs) := (regsInv_iff_of_done hphase).mp hinv
    refine ⟨release s.regs, [current s.regs], ?_, trivial, ?_⟩
    · rw [step_of_collect hev, hresponse, List.map_singleton]
    · rw [issuedNow_eq_nil (by simp [hev]), unanswered_of_not_idle (by simp [hphase]),
        unanswered_of_idle (r := release s.regs) rfl]
  case inr.inr.inr.inr => exact absurd hev hreset

end

/-- R58: any number of steps without RESET. The commands unanswered before them and issued in them are, in that order,
those answered in them and unanswered after them, and the host receives the outcomes of those answered. -/
theorem exists_runSteps_answers_in_order (n : Nat) : ∀ {s : State}, RegsInv s.regs →
    (∀ e ∈ s.inputs, e.rst = false) →
    ∃ (r : Regs s.width) (answered : List Instr),
      runSteps n s = .next
        { s with
          regs := r
          inputs := s.inputs.drop n
          received := s.received ++ answered.map (answer s.width) } ∧
      unanswered s.regs ++ issuedIn n s = answered ++ unanswered r := by
  induction n with
  | zero =>
    intro s _ _
    exact ⟨s.regs, [], by simp, by simp [issuedIn]⟩
  | succ n ih =>
    intro s hinv hrst
    obtain ⟨r, first, hstep, hinv', hfirst⟩ :=
      exists_step_answers_in_order hinv (eventNow_ne_reset (edgeNow_rst_eq_false hrst))
    obtain ⟨r', rest, hrun, hrest⟩ := ih
      (s := { s with
        regs := r
        inputs := s.inputs.tail
        received := s.received ++ first.map (answer s.width) })
      hinv' fun e he => hrst e (List.mem_of_mem_tail he)
    refine ⟨r', first ++ rest, ?_, ?_⟩
    · rw [runSteps_succ_of_next hstep, hrun]
      simp
    · rw [issuedIn_succ_of_next hstep, ← List.append_assoc, hfirst, List.append_assoc, hrest, List.append_assoc]

/-- Settles O51: an IDLE core has no command unanswered, so what is issued is what is answered and then what is
unanswered at the end. -/
theorem responsesComeInIssueOrder : Obligations.ResponsesComeInIssueOrder := by
  intro s n hidle hrst
  have hinv : RegsInv s.regs := by simp [RegsInv, hidle]
  obtain ⟨r, answered, hrun, horder⟩ := exists_runSteps_answers_in_order n hinv hrst
  rw [unanswered_of_idle hidle, List.nil_append] at horder
  exact ⟨r, answered, unanswered r, hrun, horder, length_unanswered_le, unanswered_eq_nil_iff.symm⟩

end Sys2Proof.Machine

/-! Several cores (R59): a turn of one core is a step of that core and leaves every other as it is. -/

namespace Sys2Proof.Machine

/-- R59: after the turns, from `cores` to `cores'`, each core is where it is alone after as many steps as it had turns. -/
def EachAsAlone (turns : List Nat) (cores cores' : System) : Prop :=
  cores'.length = cores.length ∧
  ∀ (k : Nat) (s : State), cores[k]? = some s → ∃ t, runSteps (turns.count k) s = .next t ∧ cores'[k]? = some t

section

variable {cores : System} {k : Nat}

theorem systemStep_of_getElem?_eq_none (h : cores[k]? = none) : systemStep k cores = .next cores := by
  simp only [systemStep, h]

theorem systemStep_of_getElem?_eq_some {s t : State} (h : cores[k]? = some s) (hstep : step s = .next t) :
    systemStep k cores = .next (cores.set k t) := by
  simp only [systemStep, h, hstep]

theorem systemRun_cons_of_next {cores' : System} (h : systemStep k cores = .next cores') (turns : List Nat) :
    systemRun (k :: turns) cores = systemRun turns cores' := by
  simp only [systemRun, h]

theorem EachAsAlone.refl (cores : System) : EachAsAlone [] cores cores := ⟨rfl, fun _ s h => ⟨s, rfl, h⟩⟩

/-- R59: the steps of a core in two parts of an interleaving follow each other. -/
theorem EachAsAlone.append {turns turns' : List Nat} {cores' cores'' : System} (h : EachAsAlone turns cores cores')
    (h' : EachAsAlone turns' cores' cores'') : EachAsAlone (turns ++ turns') cores cores'' := by
  obtain ⟨hlength, hcores⟩ := h
  obtain ⟨hlength', hcores'⟩ := h'
  refine ⟨hlength'.trans hlength, fun j s hs => ?_⟩
  obtain ⟨u, hu, hget⟩ := hcores j s hs
  obtain ⟨t, ht, hget'⟩ := hcores' j u hget
  exact ⟨t, by rw [List.count_append, runSteps_add _ hu, ht], hget'⟩

/-- R59: one turn: the core that has it makes one step, and every other none. -/
theorem exists_systemStep_eachAsAlone (k : Nat) (cores : System) :
    ∃ cores', systemStep k cores = .next cores' ∧ EachAsAlone [k] cores cores' := by
  cases hk : cores[k]? with
  | none =>
    refine ⟨cores, systemStep_of_getElem?_eq_none hk, rfl, fun j s hs => ⟨s, ?_, hs⟩⟩
    have hne : k ≠ j := by
      rintro rfl
      simp [hk] at hs
    rw [List.count_singleton, if_neg (by simpa using hne), runSteps_zero]
  | some u =>
    obtain ⟨v, hv⟩ := step_answers u
    refine ⟨cores.set k v, systemStep_of_getElem?_eq_some hk hv, List.length_set, fun j s hs => ?_⟩
    by_cases hne : k = j
    · subst hne
      obtain rfl : u = s := Option.some.inj (hk.symm.trans hs)
      refine ⟨v, ?_, List.getElem?_set_self (List.getElem?_eq_some_iff.mp hk).1⟩
      rw [List.count_singleton_self, runSteps_succ_of_next hv, runSteps_zero]
    · refine ⟨s, ?_, (List.getElem?_set_ne hne).trans hs⟩
      rw [List.count_singleton, if_neg (by simpa using hne), runSteps_zero]

end

theorem exists_systemRun_eachAsAlone (turns : List Nat) : ∀ cores : System,
    ∃ cores', systemRun turns cores = .next cores' ∧ EachAsAlone turns cores cores' := by
  induction turns with
  | nil => exact fun cores => ⟨cores, rfl, .refl cores⟩
  | cons k turns ih =>
    intro cores
    obtain ⟨next, hstep, hfirst⟩ := exists_systemStep_eachAsAlone k cores
    obtain ⟨last, hrun, hrest⟩ := ih next
    exact ⟨last, (systemRun_cons_of_next hstep turns).trans hrun, hfirst.append hrest⟩

/-- Settles O54: turn by turn, each core is where it would be alone. -/
theorem coresAreIndependent : Obligations.CoresAreIndependent :=
  fun cores turns => exists_systemRun_eachAsAlone turns cores

end Sys2Proof.Machine

/-! The encoding (R70 to R79): a request word and the command it spells determine each other, a word matches the row of
its own opcode, and the host reads an outcome back from its response word. -/

namespace Sys2Proof

section

variable {W : Width}

/-! ## From the word to the command and back -/

@[simp] theorem decodeWord_opcode (word : Wire W) : (decodeWord W word).opcode = reqOp word :=
  Machine.ofFields_opcode _ _ _

@[simp] theorem decodeWord_fieldA (word : Wire W) : (decodeWord W word).fieldA = (reqA word).toNat :=
  Machine.ofFields_fieldA _ _ _

@[simp] theorem decodeWord_fieldB (word : Wire W) : (decodeWord W word).fieldB = (reqB word).toNat :=
  Machine.ofFields_fieldB _ _ _

/-- R72, R77: both fields of a request word are operands. -/
theorem decodeWord_wellFormed (word : Wire W) : (decodeWord W word).WellFormed W := by
  rw [Instr.WellFormed, decodeWord_fieldA, decodeWord_fieldB]
  exact ⟨(reqA word).isLt, (reqB word).isLt⟩

/-- R70: the three fields leave no bit of the word out: they are its quotient by `2^(2W)` and its two lower digits in
base `2^W`. -/
theorem packFields_fields (word : Wire W) :
    packFields W (reqOp word) (reqA word).toNat (reqB word).toNat = word.toNat := by
  have hop : (reqOp word).toNat = word.toNat / 2 ^ W.bits / 2 ^ W.bits := by
    have hlt : word.toNat / 2 ^ (2 * W.bits) < 2 ^ 2 :=
      Nat.div_lt_of_lt_mul (by rw [← Nat.pow_add]; exact word.isLt)
    rw [reqOp, BitVec.extractLsb'_toNat, Nat.shiftRight_eq_div_pow, Nat.mod_eq_of_lt hlt, Nat.two_mul, Nat.pow_add,
      Nat.div_div_eq_div_mul]
  have ha : (reqA word).toNat = word.toNat / 2 ^ W.bits % 2 ^ W.bits := by
    rw [reqA, BitVec.extractLsb'_toNat, Nat.shiftRight_eq_div_pow]
  have hb : (reqB word).toNat = word.toNat % 2 ^ W.bits := by
    rw [reqB, BitVec.extractLsb'_toNat, Nat.shiftRight_zero]
  rw [packFields_eq_mul_add, hop, ha, Nat.div_add_mod, hb, Nat.div_add_mod]

/-- R77: a request word is the request word of the command it spells. -/
theorem encode_decodeWord (word : Wire W) : encode W (decodeWord W word) = word := by
  rw [encode, decodeWord_opcode, decodeWord_fieldA, decodeWord_fieldB, packFields_fields, BitVec.ofNat_toNat,
    BitVec.setWidth_eq]

/-! ## The decoder on numbers -/

theorem decode_of_lt {n : Nat} (h : n < 2 ^ W.wireBits) : decode W n = .ok (decodeWord W (BitVec.ofNat _ n)) :=
  if_pos h

/-- R78: a longer number is no request word. -/
theorem decode_of_ge {n : Nat} (h : 2 ^ W.wireBits ≤ n) : decode W n = .error .tooLong :=
  if_neg (Nat.not_lt.mpr h)

/-- R77: every request word, read as a number, is accepted. -/
@[simp] theorem decode_toNat (word : Wire W) : decode W word.toNat = .ok (decodeWord W word) := by
  rw [decode_of_lt word.isLt, BitVec.ofNat_toNat, BitVec.setWidth_eq]

/-! ## The rows of the opcode map -/

/-- R79: the match of a row is the word with the row's opcode and no other bit set. -/
theorem rowMatch_eq_packed (op : Opcode) : rowMatch W op = BitVec.ofNat W.wireBits (packFields W op 0 0) := by
  simp [rowMatch, packFields]

/-- R71, R79: rows of different opcodes have different matches. -/
theorem rowMatch_inj {op op' : Opcode} : rowMatch W op = rowMatch W op' ↔ op = op' := by
  have hfits : FitsWidth W 0 := Nat.two_pow_pos W.bits
  constructor
  · intro h
    have hfield := congrArg reqOp h
    rwa [rowMatch_eq_packed, rowMatch_eq_packed, reqOp_packed _ hfits hfits, reqOp_packed _ hfits hfits] at hfield
  · exact congrArg (rowMatch W)

/-- R79: masking a request word leaves the match of the row of its opcode field. -/
theorem and_rowMask (word : Wire W) : word &&& rowMask W = rowMatch W (reqOp word) := by
  have hpacked := packed_and_rowMask W (reqOp word) _ _ (reqA word).isLt (reqB word).isLt
  rwa [packFields_fields, BitVec.ofNat_toNat, BitVec.setWidth_eq] at hpacked

/-! ## The response word -/

/-- R150: a cause is read back from its code. -/
@[simp] theorem ofCode_code (c : InvalidArgument) : InvalidArgument.ofCode c.code = some c := by
  cases c <;> rfl

/-- R74: an outcome is put together from the three fields of a packed response word. -/
theorem decodeResponse_packed (cause : BitVec 2) (res0 res1 : Word W) :
    decodeResponse (BitVec.ofNat W.wireBits (packFields W cause res0.toNat res1.toNat)) =
      Response.ofFields cause res0 res1 := by
  rw [decodeResponse, reqOp_packed _ res0.isLt res1.isLt, reqA_packed _ res0.isLt res1.isLt,
    reqB_packed _ res0.isLt res1.isLt, Machine.trunc_toNat_of_word, Machine.trunc_toNat_of_word]

@[simp] theorem ofFields_causeNone (res0 res1 : Word W) : Response.ofFields causeNone res0 res1 = .result res0 res1 :=
  rfl

/-- R76: under a cause code the result fields do not count. -/
@[simp] theorem ofFields_code (c : InvalidArgument) (res0 res1 : Word W) :
    Response.ofFields c.code res0 res1 = .failure c := by
  rw [Response.ofFields, ofCode_code]

/-- R74, R76: the outcome is read back from its response word, whatever bits a failed one shows in its result fields. -/
theorem decodeResponse_encodeResponse (r : Response W) (x y : Word W) : decodeResponse (encodeResponse r x y) = r := by
  cases r with
  | result res0 res1 => exact (decodeResponse_packed _ _ _).trans (ofFields_causeNone _ _)
  | failure c => exact (decodeResponse_packed _ _ _).trans (ofFields_code _ _ _)

/-- R74: the field `cause` of a response word. -/
theorem reqOp_encodeResponse (r : Response W) (x y : Word W) : reqOp (encodeResponse r x y) = r.cause := by
  cases r with
  | result res0 res1 => exact reqOp_packed _ res0.isLt res1.isLt
  | failure c => exact reqOp_packed _ x.isLt y.isLt

/-- R74: the cause field of a result is 0, so its response word is the number of its two result fields. -/
theorem toNat_encodeResponse_result (res0 res1 x y : Word W) :
    (encodeResponse (.result res0 res1) x y).toNat = res0.toNat * 2 ^ W.bits + res1.toNat := by
  rw [encodeResponse, toNat_packed _ res0.isLt res1.isLt]
  simp [packFields, causeNone]

end

/-! ## The statements -/

/-- Settles O2: `decodeWord_encode`, and every request word is accepted as a number. -/
theorem decodeOfEncode : Obligations.DecodeOfEncode := by
  intro W i hwf
  rw [decode_toNat, decodeWord_encode hwf]
  exact ⟨rfl, rfl⟩

/-- Settles O1: the packed number fits in the word, and the fields of a packed word are what was packed. -/
theorem requestWordPacksItsFields : Obligations.RequestWordPacksItsFields := by
  refine ⟨fun W => rfl, rfl, fun W i ⟨ha, hb⟩ => ⟨toNat_packed _ ha hb, reqOp_packed _ ha hb, ?_, ?_⟩⟩
  · rw [encode, reqA_packed _ ha hb, Machine.trunc_toNat ha]
  · rw [encode, reqB_packed _ ha hb, Machine.trunc_toNat hb]

/-- Settles O3: the fields of a word make it up. -/
theorem encodeOfDecode : Obligations.EncodeOfDecode := fun _ word =>
  ⟨decodeWord_wellFormed word, encode_decodeWord word, decode_toNat word⟩

/-- Settles O5: the masked word is the match of its own row, and different rows have different matches. -/
theorem wordMatchesExactlyItsRow : Obligations.WordMatchesExactlyItsRow := by
  intro W word op
  rw [and_rowMask, rowMatch_inj, decodeWord_opcode]

/-- Settles O6: by the fields of a packed word, for a result and for a failure. -/
theorem responseWordRoundTrip : Obligations.ResponseWordRoundTrip := by
  intro W r x y
  refine ⟨decodeResponse_encodeResponse r x y, reqOp_encodeResponse r x y, ?_⟩
  rintro r0 r1 rfl
  exact toNat_encodeResponse_result r0 r1 x y

/-- Settles O4: on each side of the bound the decoder answers one thing. -/
theorem decodeRefusesExactlyLongNumbers : Obligations.DecodeRefusesExactlyLongNumbers := by
  intro W n
  refine ⟨fun hrefused => ?_, decode_of_ge⟩
  by_contra hshort
  rw [decode_of_lt (Nat.lt_of_not_le hshort)] at hrefused
  cases hrefused

end Sys2Proof

/-! Which terms an EXEC answers (R72, R77, R168). -/

namespace Sys2Proof.Machine

/-- Settles O24: a command of the core is answered by its `effect`, any other term is refused. -/
theorem execAnswersEveryCommand : Obligations.ExecAnswersEveryCommand := by
  intro s i
  by_cases hwf : i.WellFormed s.width
  · rw [exec_eq_effect hwf]
    exact ⟨iff_of_true ⟨_, rfl⟩ hwf, iff_of_false nofun (not_not.mpr hwf), nofun⟩
  · rw [exec_of_not_wellFormed hwf]
    exact ⟨iff_of_false nofun hwf, iff_of_true rfl hwf, nofun⟩

end Sys2Proof.Machine

/-! A command line of a script (R81): the command it issues is answered, and the line binds the outcome or stops. -/

namespace Sys2Proof.Machine

section

variable {s : State} {i : Instr}

/-- R81, R11: from an IDLE core a command of the core is answered with the outcome of its own operands, and leaves the
core IDLE. -/
theorem exists_runCommand (hidle : s.regs.phase = .idle) (hwf : i.WellFormed s.width) :
    ∃ t : State, t.regs.phase = .idle ∧ runCommand i s = .ok (responseNumbers (answer s.width i), t) := by
  obtain ⟨r, hr, hafter⟩ := commandAnsweredFromAnyIdleState s i hidle hwf
  refine ⟨{ s with regs := r, inputs := [], received := s.received ++ [answer s.width i] }, hr, ?_⟩
  rw [runCommand, if_neg (not_not.mpr hidle), if_neg (not_not.mpr hwf), hafter]
  simp

/-- R81: a command line is its command and then the binding of the outcome. -/
theorem runLine_command {t : State} {names : Bindings} {m : Mnemonic} {a : ScriptOperand} {b : Option ScriptOperand}
    {r : Except InvalidArgument (Nat × Nat)} (hline : lineCommand names m a b = .ok i)
    (hrun : runCommand i s = .ok (r, t)) (bind : Binding) :
    runLine (.command m a b bind) names s = (bindOutcome names bind r).map (·, t) := by
  simp only [runLine, hline, hrun]
  cases bindOutcome names bind r <;> rfl

end

/-- Settles O59: the line's command is answered with the failure, which `bindOutcome` binds for `-> !x` and takes for a
stop in every other form. -/
theorem scriptStopsAtAnUnexpectedFailure : Obligations.ScriptStopsAtAnUnexpectedFailure := by
  intro s names m a b i c hidle hwf hline hanswer
  obtain ⟨t, ht, hrun⟩ := exists_runCommand hidle hwf
  rw [hanswer] at hrun
  have hbind := runLine_command hline hrun
  exact ⟨fun x => hbind (.first x), fun x y => hbind (.both x y), hbind .nothing, fun x => ⟨t, ht, hbind (.cause x)⟩⟩

end Sys2Proof.Machine

/-! The scanner: `len` as the number of significant bits (R90) and its laws (R95), and the EXEC of BITLEN (R92). -/

namespace Sys2Proof.Machine

section

variable {w : Nat} (v : BitVec w)

/-! ## The value of `len` -/

/-- R90: `len` is the least position with no set bit at or above it. -/
theorem len_le_iff_clear_above {k : Nat} : len v ≤ k ↔ ∀ j, k ≤ j → v.getLsbD j = false := by
  constructor
  · exact fun hlen j hj => len_clear_above v j (hlen.trans hj)
  · intro hclear
    by_contra hlen
    have hset := len_top_set v (by omega)
    rw [hclear _ (by omega)] at hset
    cases hset

/-- R90: no bit is set from `k` on exactly when the value is below `2 ^ k`. -/
theorem len_le_iff_lt_two_pow {k : Nat} : len v ≤ k ↔ v.toNat < 2 ^ k := by
  rw [len_le_iff_clear_above]
  constructor
  · exact fun hclear => Nat.lt_pow_two_of_testBit _ hclear
  · exact fun hlt j hj => Nat.testBit_lt_two_pow (hlt.trans_le (Nat.pow_le_pow_right Nat.two_pos hj))

/-- R90: `len` is the binary size of the number that the word holds. -/
theorem len_eq_size : len v = Nat.size v.toNat :=
  eq_of_forall_ge_iff fun _ => (len_le_iff_lt_two_pow v).trans Nat.size_le.symm

theorem len_trunc {n : Nat} (h : n < 2 ^ w) : len (trunc w n) = Nat.size n := by
  rw [len_eq_size, trunc_toNat h]

/-- R90: both sides are the least exponent whose power of two exceeds the value. -/
theorem len_eq_log2_succ (h : v ≠ 0) : len v = Nat.log2 v.toNat + 1 := by
  have hne : v.toNat ≠ 0 := fun h0 => h (BitVec.eq_of_toNat_eq h0)
  exact eq_of_forall_ge_iff fun _ => (len_le_iff_lt_two_pow v).trans (Nat.log2_lt hne).symm

/-! ## The laws of `len` -/

theorem toNat_lt_two_pow_len : v.toNat < 2 ^ len v := (len_le_iff_lt_two_pow v).mp le_rfl

/-- R95: a word holds `W` significant bits exactly when its top bit is set. -/
theorem len_eq_width_iff (hw : 0 < w) : len v = w ↔ v.getLsbD (w - 1) = true := by
  constructor
  · intro hlen
    have hset := len_top_set v (by omega)
    rwa [hlen] at hset
  · intro hset
    by_contra hlen
    have hle := len_le_width v
    rw [len_clear_above v (w - 1) (by omega)] at hset
    cases hset

theorem len_mono {m n : BitVec w} (h : m.toNat ≤ n.toNat) : len m ≤ len n := by
  rw [len_eq_size, len_eq_size]
  exact Nat.size_le_size h

/-- R95: the highest set bit is worth no more than the value. -/
theorem two_pow_len_pred_le (h : 1 ≤ v.toNat) : 2 ^ (len v - 1) ≤ v.toNat := by
  have hpos : 0 < Nat.size v.toNat := Nat.size_pos.mpr h
  rw [len_eq_size]
  exact Nat.lt_size.mp (by omega)

/-- R95: a shift that loses no bit makes the word one bit longer. -/
theorem len_shiftLeft_one (hpos : 1 ≤ v.toNat) (hfits : 2 * v.toNat < 2 ^ w) : len (v <<< 1) = len v + 1 := by
  have hne : v.toNat ≠ 0 := by omega
  have hshift : (v <<< 1).toNat = v.toNat <<< 1 := by
    rw [BitVec.toNat_shiftLeft, Nat.mod_eq_of_lt (by rw [Nat.shiftLeft_eq]; omega)]
  rw [len_eq_size, len_eq_size, hshift, Nat.size_shiftLeft hne]

/-- R95, R131: two words of one length have their highest set bit in common, and their sum loses it. -/
theorem len_xor_lt {x y : BitVec w} (hlen : len x = len y) (hpos : 1 ≤ len x) : len (x ^^^ y) < len x := by
  have hclear : len (x ^^^ y) ≤ len x - 1 := by
    refine (len_le_iff_clear_above _).mpr fun j hj => ?_
    rw [BitVec.getLsbD_xor]
    by_cases htop : j = len x - 1
    · have hx := len_top_set x hpos
      have hy := len_top_set y (hlen ▸ hpos)
      rw [htop, hx, hlen, hy]
      rfl
    · rw [len_clear_above x j (by omega), len_clear_above y j (by omega)]
      rfl
  omega

end

/-- R95: `2^k - 1` is `k` ones. -/
theorem size_two_pow_sub_one {k : Nat} : Nat.size (2 ^ k - 1) = k :=
  eq_of_forall_ge_iff fun m => by
    rw [Nat.size_le, Nat.sub_lt_iff_lt_add (Nat.two_pow_pos k), Nat.lt_succ_iff,
      Nat.pow_le_pow_iff_right Nat.one_lt_two]

/-! ## The statements -/

/-- Settles O10: by the top bit, the logarithm and the least exponent of the value. -/
theorem lenCountsSignificantBits : Obligations.LenCountsSignificantBits := by
  intro w v
  refine ⟨?_, fun hv => ?_, toNat_lt_two_pow_len v, fun k => (len_le_iff_lt_two_pow v).mpr, len_le_width v⟩
  · rintro rfl
    exact len_zero
  · have hpos := len_pos_of_ne_zero v hv
    exact ⟨len_eq_log2_succ v hv, len v - 1, by omega, len_top_set v hpos, fun j hj => len_clear_above v j (by omega)⟩

/-- Settles O11: each law is a law of `len` above or of the binary size of its value. -/
theorem lenLaws : Obligations.LenLaws := by
  intro w hw
  refine ⟨fun k hk => ?_, fun k _ hk => ?_, fun m n => len_mono, fun n => len_eq_width_iff n hw,
    fun n hn => ⟨two_pow_len_pred_le n hn, toNat_lt_two_pow_len n⟩, len_shiftLeft_one, fun x y => len_xor_lt⟩
  · rw [len_trunc (Nat.pow_lt_pow_right Nat.one_lt_two (by omega)), Nat.size_pow]
  · have hle : 2 ^ k ≤ 2 ^ w := Nat.pow_le_pow_right Nat.two_pos hk
    rw [len_trunc (Nat.sub_one_lt_of_le (Nat.two_pow_pos k) hle), size_two_pow_sub_one]

/-- R92, R93: the whole effect of one EXEC of BITLEN on the registers, by its operand. -/
theorem effect_bitlen {W : Width} {n : Nat} (hn : n < 2 ^ W.bits) (b : Nat) (r : Regs W) :
    effect (.bitlen n b) r =
      if n = 0 then raise .zeroOperand r else respond (trunc W.bits (len (trunc W.bits n))) 0 r :=
  if_congr (trunc_eq_zero_iff hn) rfl rfl

/-- R92: a result of BITLEN is no longer than the register that takes it. -/
theorem toNat_trunc_len {w : Nat} (v : BitVec w) : (trunc w (len v)).toNat = len v :=
  trunc_toNat ((len_le_width v).trans_lt Nat.lt_two_pow_self)

/-- Settles O14: by `effect_bitlen`, for the operand 0 and for any other. -/
theorem bitlenCompletes : Obligations.BitlenCompletes := by
  refine ⟨fun s n b hn hb => ⟨?_, fun hne => ?_, reqOp_packed _ hn hb⟩, rfl, rfl⟩
  · rw [exec_eq_effect (i := .bitlen n b) ⟨hn, hb⟩, effect_bitlen hn]
    rfl
  · rw [toNat_trunc_len]
    exact ⟨len_pos_of_ne_zero _ (mt (trunc_eq_zero_iff hn).mp hne), rfl, len_le_width _⟩

end Sys2Proof.Machine

/-! The extractor: `bitat` as a binary digit (R100, R104), and the EXEC of BITAT (R102). -/

namespace Sys2Proof.Machine

/-! ## The value of `bitat` -/

section

variable {w : Nat} (v : BitVec w) {i : Nat}

/-- R100: inside its domain the extracted bit is the binary digit of weight `2 ^ (len(v) - i)`. -/
theorem toNat_bitat (h1 : 1 ≤ i) (h2 : i ≤ len v) : (bitat v i).toNat = v.toNat / 2 ^ (len v - i) % 2 := by
  rw [bitat_of_mem v i h1 h2, ← BitVec.testBit_toNat, Nat.toNat_testBit]

/-- R104: the bits of the significant span, each at its weight, are the binary digits of the value in reverse order. -/
theorem sum_bitat_eq_sum_digits :
    ∑ i ∈ Finset.Icc 1 (len v), (bitat v i).toNat * 2 ^ (len v - i) =
      ∑ j ∈ Finset.range (len v), v.toNat / 2 ^ j % 2 * 2 ^ j := by
  refine Finset.sum_nbij' (len v - ·) (len v - ·) ?_ ?_ ?_ ?_ fun i hi => ?digit
  case digit =>
    obtain ⟨h1, h2⟩ := Finset.mem_Icc.mp hi
    rw [toNat_bitat v h1 h2]
  all_goals
    simp only [Finset.mem_Icc, Finset.mem_range]
    omega

end

/-- The lower binary digits of a number, each at its weight, make up its residue. -/
theorem sum_digits_eq_mod (n k : Nat) : ∑ j ∈ Finset.range k, n / 2 ^ j % 2 * 2 ^ j = n % 2 ^ k := by
  induction k with
  | zero => simp [Nat.mod_one]
  | succ k ih => rw [Finset.sum_range_succ, ih, Nat.mod_pow_succ, Nat.mul_comm (2 ^ k)]

/-! ## One EXEC of BITAT -/

theorem zextBit_eq_ite (w : Nat) (d : Bool) : zextBit w d = if d then 1 else 0 := by
  cases d <;> rfl

/-- R102, R156: the whole effect of one EXEC of BITAT on the registers, by its operands. -/
theorem effect_bitat {W : Width} {v i : Nat} (hv : v < 2 ^ W.bits) (hi : i < 2 ^ W.bits) (r : Regs W) :
    effect (.bitat v i) r =
      if v = 0 then raise .zeroOperand r
      else if i = 0 ∨ len (trunc W.bits v) < i then raise .indexRange r
      else respond (zextBit W.bits (bitat (trunc W.bits v) i)) 0 r := by
  have hregs : effect (.bitat v i) r = bitatRegs (trunc W.bits v) (trunc W.bits i) r := rfl
  simp only [hregs, bitatRegs, trunc_eq_zero_iff hv, trunc_eq_zero_iff hi, trunc_toNat hi]

/-! ## The statements -/

/-- Settles O12: by the digit that `bitat` is, and the length is at most the width. -/
theorem bitatIsTheIndexedBit : Obligations.BitatIsTheIndexedBit := by
  intro w v i h1 h2
  have hlen := len_le_width v
  exact ⟨toNat_bitat v h1 h2, bitat_of_mem v i h1 h2, by omega⟩

/-- Settles O13: the first position is the highest set bit, the last has weight 1, and the value is its own residue
modulo `2 ^ len(v)`, the sum of its digits. -/
theorem bitatLaws : Obligations.BitatLaws := by
  intro w v hv
  have hpos := len_pos_of_ne_zero v hv
  refine ⟨?_, ?_, ?_⟩
  · rw [bitat_of_mem v 1 le_rfl hpos, len_top_set v hpos]
  · rw [toNat_bitat v hpos le_rfl, Nat.sub_self, Nat.pow_zero, Nat.div_one]
  · rw [sum_bitat_eq_sum_digits, sum_digits_eq_mod, Nat.mod_eq_of_lt (toNat_lt_two_pow_len v)]

/-- Settles O15: by `effect_bitat`; past the two failures the index is in the domain of `bitat`. -/
theorem bitatCompletes : Obligations.BitatCompletes := by
  refine ⟨fun s v i hv hi => ⟨?_, reqOp_packed _ hv hi⟩, rfl, rfl⟩
  rw [exec_eq_effect (i := .bitat v i) ⟨hv, hi⟩, effect_bitat hv hi]
  by_cases hrange : i = 0 ∨ len (trunc s.width.bits v) < i
  · simp only [if_pos hrange]
    rfl
  · have hbit := bitat_of_mem (trunc s.width.bits v) i (by omega) (by omega)
    simp only [if_neg hrange, hbit, zextBit_eq_ite]
    rfl

end Sys2Proof.Machine

/-! The message extender: `extendWord` as a shift (R110), its contract (R111) and its laws (R114), and the EXEC of
EXTEND. -/

namespace Sys2Proof.Machine

section

variable {w : Nat} (m : BitVec w) (d : Nat)

/-! ## The value of `extendWord` -/

/-- R110: the extended message is the message shifted left inside its word, for a degree of `W` or more too. -/
theorem extendWord_eq_shiftLeft : extendWord m d = m <<< d := by
  rcases Nat.lt_or_ge d w with hd | hd
  · rw [extendWord_of_lt m d hd, ← Nat.shiftLeft_eq]
    rfl
  · rw [extendWord_of_ge m d hd, BitVec.shiftLeft_eq_zero hd]
    rfl

theorem toNat_extendWord : (extendWord m d).toNat = m.toNat * 2 ^ d % 2 ^ w := by
  rw [extendWord_eq_shiftLeft, BitVec.toNat_shiftLeft, Nat.shiftLeft_eq]

/-- R111: in contract the truncation removes nothing. -/
theorem toNat_extendWord_of_lt (h : m.toNat * 2 ^ d < 2 ^ w) : (extendWord m d).toNat = m.toNat * 2 ^ d := by
  rw [toNat_extendWord, Nat.mod_eq_of_lt h]

/-- R114: the appended bits are 0. -/
theorem extendWord_clear_below {j : Nat} (h : j < d) : (extendWord m d).getLsbD j = false := by
  simp [extendWord_eq_shiftLeft, h]

/-- R114: the extension by a sum is made in two parts, in contract or not. -/
theorem extendWord_add (d1 d2 : Nat) : extendWord m (d1 + d2) = extendWord (extendWord m d1) d2 := by
  simp only [extendWord_eq_shiftLeft, BitVec.shiftLeft_add]

/-! ## The length of the extended message -/

/-- R111, R114: a nonzero message has `d` more bits once multiplied by `2 ^ d`. -/
theorem size_mul_two_pow (h : m ≠ 0) : Nat.size (m.toNat * 2 ^ d) = len m + d := by
  have hne : m.toNat ≠ 0 := fun h0 => h (BitVec.eq_of_toNat_eq h0)
  rw [← Nat.shiftLeft_eq, Nat.size_shiftLeft hne, len_eq_size]

/-- R111: the two forms of the contract agree. -/
theorem mul_two_pow_lt_iff : m.toNat * 2 ^ d < 2 ^ w ↔ m = 0 ∨ len m + d ≤ w := by
  by_cases hm : m = 0
  · exact iff_of_true (by simp [hm]) (.inl hm)
  · rw [or_iff_right hm, ← size_mul_two_pow m d hm, Nat.size_le]

/-- R114: in contract the length of a nonzero message grows by the degree. -/
theorem len_extendWord (h : m.toNat * 2 ^ d < 2 ^ w) (hm : m ≠ 0) : len (extendWord m d) = len m + d := by
  rw [len_eq_size, toNat_extendWord_of_lt m d h, size_mul_two_pow m d hm]

/-! ## Filling the appended zeros -/

variable {m d} {r : BitVec w}

/-- R114: a word below `2 ^ d` has no bit in common with a message extended by `d`. -/
theorem extendWord_xor_eq_or (hr : r.toNat < 2 ^ d) : extendWord m d ^^^ r = extendWord m d ||| r := by
  refine BitVec.eq_of_getLsbD_eq fun j _ => ?_
  rw [BitVec.getLsbD_xor, BitVec.getLsbD_or]
  rcases Nat.lt_or_ge j d with hj | hj
  · rw [extendWord_clear_below m d hj, Bool.false_xor, Bool.false_or]
  · rw [len_clear_above r j (((len_le_iff_lt_two_pow r).mpr hr).trans hj), Bool.xor_false, Bool.or_false]

/-- R114: in contract the appended zeros take a word below `2 ^ d` without a carry. -/
theorem toNat_extendWord_xor (h : m.toNat * 2 ^ d < 2 ^ w) (hr : r.toNat < 2 ^ d) :
    (extendWord m d ^^^ r).toNat = (extendWord m d).toNat + r.toNat := by
  rw [extendWord_xor_eq_or hr, BitVec.toNat_or, toNat_extendWord_of_lt m d h, Nat.mul_comm,
    Nat.two_pow_add_eq_or_of_lt hr]

end

/-! ## The statements -/

/-- Settles O25: both forms say that the product has at most `w` bits, and then the truncation keeps it. -/
theorem extendExactInContract : Obligations.ExtendExactInContract := fun _ m d =>
  ⟨mul_two_pow_lt_iff m d, toNat_extendWord_of_lt m d⟩

/-- Settles O26: the extension is a shift, so the first two laws and the last hold in contract or not. -/
theorem extendLaws : Obligations.ExtendLaws := by
  intro w m
  refine ⟨?_, fun d => ?_, fun d h hm => ?_, fun d r h hr => ?_, fun d1 d2 _ => (extendWord_add m d1 d2).symm⟩
  · rw [extendWord_eq_shiftLeft, BitVec.shiftLeft_zero]
  · rw [extendWord_eq_shiftLeft]
    exact BitVec.zero_shiftLeft d
  · exact ⟨len_extendWord m d h hm, fun j => extendWord_clear_below m d⟩
  · exact ⟨extendWord_xor_eq_or hr, toNat_extendWord_xor h hr⟩

/-- R110: the whole effect of one EXEC of EXTEND on the registers. -/
theorem effect_extend {W : Width} (m : Nat) {d : Nat} (hd : d < 2 ^ W.bits) (r : Regs W) :
    effect (.extend m d) r = respond (extendWord (trunc W.bits m) d) 0 r := by
  have hregs : effect (.extend m d) r = extendRegs (trunc W.bits m) (trunc W.bits d) r := rfl
  rw [hregs, extendRegs, trunc_toNat hd]

/-- Settles O16: by `effect_extend`; the result is `extendWord` of the message, 0 for a degree of `W` or more. -/
theorem extendCompletes : Obligations.ExtendCompletes := by
  refine ⟨fun s m d hm hd => ⟨⟨extendWord (trunc s.width.bits m) d, ?_, extendWord_of_ge _ d, ?_⟩,
    reqOp_packed _ hm hd⟩, rfl, rfl⟩
  · rw [toNat_extendWord, trunc_toNat hm]
  · rw [exec_eq_effect (i := .extend m d) ⟨hm, hd⟩, effect_extend m hd]
    rfl

end Sys2Proof.Machine

/-! The product over GF(2) (R133): its recursion, its additivity, its bits and its length. -/

namespace Sys2Proof.Machine

/-! ## The partial products -/

section

variable (q q' v : Nat) {k m n : Nat}

theorem gf2mulBelow_succ (k : Nat) :
    gf2mulBelow q v (k + 1) = gf2mulBelow q v k ^^^ if q.testBit k then v <<< k else 0 := rfl

@[simp] theorem gf2mulBelow_zero_left (k : Nat) : gf2mulBelow 0 v k = 0 := by
  induction k with
  | zero => rfl
  | succ k ih => simp [gf2mulBelow_succ, ih]

/-- R133: the positions above the bits of `q` contribute nothing. -/
theorem gf2mulBelow_of_lt_two_pow {q : Nat} (hq : q < 2 ^ m) (h : m ≤ n) :
    gf2mulBelow q v n = gf2mulBelow q v m := by
  induction n, h using Nat.le_induction with
  | base => rfl
  | succ n hmn ih =>
    have hclear : q.testBit n = false :=
      Nat.testBit_lt_two_pow (hq.trans_le (Nat.pow_le_pow_right Nat.two_pos hmn))
    simp [gf2mulBelow_succ, hclear, ih]

/-- R133: the product is additive in the first factor. -/
theorem gf2mulBelow_xor (k : Nat) :
    gf2mulBelow (q ^^^ q') v k = gf2mulBelow q v k ^^^ gf2mulBelow q' v k := by
  induction k with
  | zero => simp [gf2mulBelow]
  | succ k ih =>
    have hterm : (if (q.testBit k ^^ q'.testBit k) then v <<< k else 0) =
        (if q.testBit k then v <<< k else 0) ^^^ if q'.testBit k then v <<< k else 0 := by
      cases q.testBit k <;> cases q'.testBit k <;> simp
    rw [gf2mulBelow_succ, ih, Nat.testBit_xor, hterm, gf2mulBelow_succ, gf2mulBelow_succ]
    ac_rfl

/-- Doubling is additive over GF(2), and the new lowest bit is in the way of nothing. -/
theorem two_mul_xor_add (x y : Nat) (b : Bool) : 2 * (x ^^^ y) + b.toNat = 2 * x ^^^ (2 * y + b.toNat) := by
  simpa [Nat.bit_val] using (Nat.xor_bit false x b y).symm

theorem two_mul_xor (x y : Nat) : 2 * (x ^^^ y) = 2 * x ^^^ 2 * y := two_mul_xor_add x y false

/-- R133: a bit appended to the first factor doubles the product and adds the second factor if the bit is 1. -/
theorem gf2mulBelow_two_mul_add (b : Bool) (k : Nat) :
    gf2mulBelow (2 * q + b.toNat) v (k + 1) = 2 * gf2mulBelow q v k ^^^ if b then v else 0 := by
  rw [← Nat.bit_val]
  induction k with
  | zero => simp [gf2mulBelow]
  | succ k ih =>
    have hshift : 2 * (if q.testBit k then v <<< k else 0) = if q.testBit k then v <<< (k + 1) else 0 := by
      cases q.testBit k <;> simp [Nat.shiftLeft_succ]
    rw [gf2mulBelow_succ, ih, Nat.testBit_bit_succ, gf2mulBelow_succ q, two_mul_xor, hshift, Nat.xor_right_comm]

/-- R133: the product by the polynomial 1 keeps the bits that it has passed. -/
theorem gf2mulBelow_one_right (k : Nat) : gf2mulBelow q 1 k = q % 2 ^ k := by
  induction k with
  | zero => simp [gf2mulBelow, Nat.mod_one]
  | succ k ih =>
    refine Nat.eq_of_testBit_eq fun j => ?_
    have hterm : (if q.testBit k then 1 <<< k else 0).testBit j = (decide (k = j) && q.testBit k) := by
      cases q.testBit k <;> simp [Nat.one_shiftLeft, Nat.testBit_two_pow]
    rw [gf2mulBelow_succ, ih, Nat.testBit_xor, hterm, Nat.testBit_mod_two_pow, Nat.testBit_mod_two_pow]
    rcases Nat.lt_trichotomy j k with h | rfl | h
    · simp [h, h.ne', Nat.lt_succ_of_lt h]
    · simp
    · simp [h.ne, h.not_gt, Nat.not_lt.mpr h]

/-! ## Bits and length -/

/-- R133: the terms `v << i` with `i` above `k` have no bit `k`. -/
theorem testBit_gf2mulBelow_of_lt (h : k < n) :
    (gf2mulBelow q v n).testBit k = (gf2mulBelow q v (k + 1)).testBit k := by
  induction n, (h : k + 1 ≤ n) using Nat.le_induction with
  | base => rfl
  | succ n hkn ih =>
    rw [gf2mulBelow_succ, Nat.testBit_xor, ih]
    split <;> simp [Nat.not_le.mpr hkn]

/-- R133: the bits of the partial products that reach position `k`. -/
theorem testBit_gf2mulBelow (h : n ≤ k + 1) :
    (gf2mulBelow q v n).testBit k =
      (List.range n).foldl (fun x i => Bool.xor x (q.testBit i && v.testBit (k - i))) false := by
  induction n with
  | zero => simp [gf2mulBelow]
  | succ n ih =>
    have hle : n ≤ k := Nat.le_of_lt_succ h
    rw [gf2mulBelow_succ, Nat.testBit_xor, ih (by omega), List.range_succ, List.foldl_append, List.foldl_cons,
      List.foldl_nil]
    cases q.testBit n <;> simp [hle]

/-- R133: the bound of a product, from the bounds of its factors. -/
theorem gf2mulBelow_lt_two_pow {v : Nat} (hv : v < 2 ^ (m + 1)) (k : Nat) : gf2mulBelow q v k < 2 ^ (k + m) := by
  induction k with
  | zero => exact Nat.two_pow_pos _
  | succ k ih =>
    have hlow : gf2mulBelow q v k < 2 ^ (k + 1 + m) := ih.trans (Nat.pow_lt_pow_right Nat.one_lt_two (by omega))
    have hterm : v <<< k < 2 ^ (k + 1 + m) := by
      rw [Nat.shiftLeft_eq, show k + 1 + m = m + 1 + k by omega, Nat.pow_add]
      exact Nat.mul_lt_mul_of_pos_right hv (Nat.two_pow_pos k)
    rw [gf2mulBelow_succ]
    split
    · exact Nat.xor_lt_two_pow hlow hterm
    · rwa [Nat.xor_zero]

/-- R133: the highest bit of a product is the sum of the highest bits of its factors. -/
theorem size_gf2mulBelow {q v : Nat} (hq : q.testBit k = true) (hv : v.testBit m = true) (hlt : v < 2 ^ (m + 1)) :
    Nat.size (gf2mulBelow q v (k + 1)) = k + m + 1 := by
  have hlow : (gf2mulBelow q v k).testBit (k + m) = false := Nat.testBit_lt_two_pow (gf2mulBelow_lt_two_pow q hlt k)
  have htop : (gf2mulBelow q v (k + 1)).testBit (k + m) = true := by
    rw [gf2mulBelow_succ, if_pos hq, Nat.testBit_xor, hlow]
    simp [hv]
  have hupper : Nat.size (gf2mulBelow q v (k + 1)) ≤ k + 1 + m :=
    Nat.size_le.mpr (gf2mulBelow_lt_two_pow q hlt (k + 1))
  have hlower : k + m < Nat.size (gf2mulBelow q v (k + 1)) := Nat.lt_size.mpr (Nat.ge_two_pow_of_testBit htop)
  omega

end

/-! ## The product of two words -/

section

variable {w : Nat} (q q' v : BitVec w)

@[simp] theorem gf2mul_zero_left : gf2mul 0#w v = 0 := gf2mulBelow_zero_left v.toNat w

theorem gf2mul_one_left (hw : 0 < w) : gf2mul 1#w v = v.toNat := by
  rw [gf2mul, BitVec.toNat_one hw, gf2mulBelow_of_lt_two_pow v.toNat (m := 1) (by decide) hw]
  simp [gf2mulBelow]

theorem gf2mul_one_right (hw : 0 < w) : gf2mul q 1#w = q.toNat := by
  rw [gf2mul, BitVec.toNat_one hw, gf2mulBelow_one_right, Nat.mod_eq_of_lt q.isLt]

theorem gf2mul_xor : gf2mul (q ^^^ q') v = gf2mul q v ^^^ gf2mul q' v := by
  rw [gf2mul, BitVec.toNat_xor, gf2mulBelow_xor]
  rfl

/-- A nonzero word, as a number, with its highest bit. -/
theorem exists_testBit_top {v : BitVec w} (hv : v ≠ 0) :
    ∃ m, len v = m + 1 ∧ v.toNat.testBit m = true ∧ v.toNat < 2 ^ (m + 1) := by
  have hpos := len_pos_of_ne_zero v hv
  have hlen : len v = len v - 1 + 1 := (Nat.sub_add_cancel hpos).symm
  exact ⟨len v - 1, hlen, (BitVec.testBit_toNat v).trans (len_top_set v hpos), hlen ▸ toNat_lt_two_pow_len v⟩

/-- R132, R133: the product of two nonzero words has the sum of their lengths less one. -/
theorem size_gf2mul_add_one {q v : BitVec w} (hq : q ≠ 0) (hv : v ≠ 0) :
    Nat.size (gf2mul q v) + 1 = len q + len v := by
  obtain ⟨k, hk, hqtop, hqlt⟩ := exists_testBit_top hq
  obtain ⟨m, hm, hvtop, hvlt⟩ := exists_testBit_top hv
  rw [gf2mul, gf2mulBelow_of_lt_two_pow v.toNat hqlt (hk ▸ len_le_width q), size_gf2mulBelow hqtop hvtop hvlt]
  omega

end

/-- Settles O27: the bound is that of two factors of `w` bits; bit `k` is reached by the positions of `q` up to `k`, of
which those from `w` on hold no bit. -/
theorem productBits : Obligations.ProductBits := by
  intro w q v hw
  constructor
  · have hv : v.toNat < 2 ^ (w - 1 + 1) := by rw [Nat.sub_add_cancel hw]; exact v.isLt
    have hlt := gf2mulBelow_lt_two_pow q.toNat hv w
    rwa [show w + (w - 1) = 2 * w - 1 by omega] at hlt
  · intro k
    simp only [← BitVec.testBit_toNat]
    rw [← testBit_gf2mulBelow q.toNat v.toNat le_rfl, gf2mul]
    rcases Nat.lt_or_ge k w with hk | hk
    · exact testBit_gf2mulBelow_of_lt q.toNat v.toNat hk
    · rw [gf2mulBelow_of_lt_two_pow v.toNat q.isLt (hk.trans (Nat.le_succ k))]

end Sys2Proof.Machine

/-! One iteration of the division (R123): bringing down a bit, the test `fits`, and the accumulator that stays shorter
than the divisor (R129, R131). -/

namespace Sys2Proof.Machine

/-! ## Bringing down a bit -/

section

variable {w : Nat} (v : BitVec w) (b : Bool)

/-- R123: a bit is appended at the low end, and what passes the high end is lost. -/
theorem toNat_bringDown (hw : 0 < w) : (bringDown v b).toNat = 2 * v.toNat % 2 ^ w + b.toNat := by
  have hbit : (zextBit w b).toNat = b.toNat :=
    Nat.mod_eq_of_lt ((Bool.toNat_lt b).trans_le (Nat.pow_le_pow_right Nat.two_pos hw))
  have heven : 2 * v.toNat % 2 ^ w = 2 ^ 1 * (v.toNat % 2 ^ (w - 1)) := by
    rw [Nat.pow_one, ← Nat.mul_mod_mul_left, Nat.mul_comm 2 (2 ^ _), Nat.two_pow_pred_mul_two hw]
  rw [bringDown, BitVec.toNat_or, BitVec.toNat_shiftLeft, hbit, Nat.shiftLeft_eq, Nat.pow_one, Nat.mul_comm v.toNat,
    heven, Nat.two_pow_add_eq_or_of_lt (by simpa using Bool.toNat_lt b)]

/-- R123: the shifted word with the bit appended, as a truncated number. -/
theorem bringDown_eq_trunc (hw : 0 < w) : bringDown v b = trunc w (2 * v.toNat + b.toNat) := by
  refine BitVec.eq_of_toNat_eq ?_
  have hlt := (bringDown v b).isLt
  rw [toNat_bringDown v b hw] at hlt ⊢
  rw [trunc, BitVec.toNat_ofNat, ← Nat.mod_add_mod, Nat.mod_eq_of_lt hlt]

/-- R131: where the shift loses no bit the truncation is the identity. -/
theorem toNat_bringDown_of_lt {v : BitVec w} {b : Bool} (h : 2 * v.toNat + b.toNat < 2 ^ w) (hw : 0 < w) :
    (bringDown v b).toNat = 2 * v.toNat + b.toNat := by
  rw [bringDown_eq_trunc v b hw, trunc_toNat h]

end

/-! ## Widths and lengths -/

theorem pos_width_of_ne_zero {w : Nat} {v : BitVec w} (h : v ≠ 0) : 0 < w :=
  (len_pos_of_ne_zero v h).trans_le (len_le_width v)

/-- R123: a zero accumulator is shorter than every divisor. -/
theorem len_zero_lt {w : Nat} {v : BitVec w} (h : v ≠ 0) : len (0 : BitVec w) < len v := by
  simpa using len_pos_of_ne_zero v h

/-- A sum is no longer than both of its terms. -/
theorem len_xor_le {w k : Nat} {x y : BitVec w} (hx : len x ≤ k) (hy : len y ≤ k) : len (x ^^^ y) ≤ k := by
  rw [len_le_iff_lt_two_pow] at hx hy ⊢
  rw [BitVec.toNat_xor]
  exact Nat.xor_lt_two_pow hx hy

/-- A shorter term does not reach the highest bit of a sum. -/
theorem len_xor_of_lt {w : Nat} {x y : BitVec w} (h : len y < len x) : len (x ^^^ y) = len x := by
  refine (len_xor_le le_rfl h.le).antisymm (Nat.le_of_not_lt fun hlt => ?_)
  have hback : len ((x ^^^ y) ^^^ y) ≤ len x - 1 := len_xor_le (by omega) (by omega)
  rw [BitVec.xor_assoc, BitVec.xor_self, BitVec.xor_zero] at hback
  omega

/-! ## The test and the subtraction -/

section

variable {w : Nat}

theorem fits_iff (v acc1 : BitVec w) : fits v acc1 = true ↔ len v ≤ len acc1 := decide_eq_true_iff

theorem fits_eq_false_iff (v acc1 : BitVec w) : fits v acc1 = false ↔ len acc1 < len v :=
  decide_eq_false_iff_not.trans Nat.not_le

/-- R123: the bit appended to the quotient is the outcome of the test, and the divisor is subtracted if it is 1. -/
theorem divStep_eq (a b : BitVec w) (i : Nat) (quot acc : BitVec w) :
    divStep a b i quot acc =
      (bringDown quot (fits b (bringDown acc (bitat a i))),
        bringDown acc (bitat a i) ^^^ if fits b (bringDown acc (bitat a i)) then b else 0) := by
  rcases divStep_cases a b i quot acc with ⟨hfits, h⟩ | ⟨hfits, h⟩ <;> rw [h, hfits] <;>
    simp [bringDown, zextBit]

end

/-! ## An accumulator shorter than the divisor -/

section

variable {w : Nat} {v acc : BitVec w} (h : len acc < len v) (b : Bool)

include h

/-- R131: the next accumulator has no bit above the divisor's highest. -/
theorem two_mul_add_lt_of_shorter : 2 * acc.toNat + b.toNat < 2 ^ len v := by
  have hacc : acc.toNat < 2 ^ (len v - 1) := (len_le_iff_lt_two_pow acc).mp (by omega)
  have hdouble : 2 ^ (len v - 1) * 2 = 2 ^ len v := Nat.two_pow_pred_mul_two (by omega)
  have hb := Bool.toNat_lt b
  omega

/-- R131: the shift of the accumulator loses no bit. -/
theorem toNat_bringDown_of_shorter : (bringDown acc b).toNat = 2 * acc.toNat + b.toNat := by
  have hlen := len_le_width v
  have hlt := two_mul_add_lt_of_shorter h b
  exact toNat_bringDown_of_lt (hlt.trans_le (Nat.pow_le_pow_right Nat.two_pos hlen)) (by omega)

theorem len_bringDown_le : len (bringDown acc b) ≤ len v := by
  rw [len_le_iff_lt_two_pow, toNat_bringDown_of_shorter h b]
  exact two_mul_add_lt_of_shorter h b

/-- R123, R131: the divisor fits exactly under an accumulator of its own length. -/
theorem fits_bringDown_iff_len_eq : len v ≤ len (bringDown acc b) ↔ len (bringDown acc b) = len v :=
  ⟨(len_bringDown_le h b).antisymm, Eq.ge⟩

/-- R123, R131: the divisor fits exactly when the accumulator has the bit of the divisor's highest. -/
theorem fits_bringDown_iff_top_set :
    len v ≤ len (bringDown acc b) ↔ (bringDown acc b).getLsbD (len v - 1) = true := by
  constructor
  · intro hfits
    rw [← (fits_bringDown_iff_len_eq h b).mp hfits]
    exact len_top_set _ (by omega)
  · intro hset
    by_contra hshort
    rw [len_clear_above _ _ (by omega)] at hset
    cases hset

/-- R131: subtracting a divisor that fits clears the highest bit. -/
theorem len_bringDown_xor_lt (hfits : len v ≤ len (bringDown acc b)) : len (bringDown acc b ^^^ v) < len v := by
  have heq := (fits_bringDown_iff_len_eq h b).mp hfits
  have hlt := len_xor_lt heq (by omega)
  rwa [heq] at hlt

/-- R129: an iteration leaves the accumulator shorter than the divisor. -/
theorem len_divStep_snd_lt (a : BitVec w) (i : Nat) (quot : BitVec w) : len (divStep a v i quot acc).2 < len v := by
  rcases divStep_cases a v i quot acc with ⟨hfits, hstep⟩ | ⟨hfits, hstep⟩ <;> rw [hstep]
  · exact len_bringDown_xor_lt h _ ((fits_iff v _).mp hfits)
  · exact (fits_eq_false_iff v _).mp hfits

end

end Sys2Proof.Machine

/-! The division as a loop (R126): what holds after every iteration (R127, R129, R131), and the one pair of quotient and
remainder that it ends with (R132). -/

namespace Sys2Proof.Machine

/-! ## The invariant of the loop -/

/-- R127, R129, R131: what quotient and accumulator `p` are after `i` iterations of the division of `d` by `v`. -/
structure DivisionInv {w : Nat} (d v : BitVec w) (i : Nat) (p : BitVec w × BitVec w) : Prop where
  quot_lt : p.1.toNat < 2 ^ i
  acc_shorter : len p.2 < len v
  identity : d.toNat / 2 ^ (len d - i) = gf2mul p.1 v ^^^ p.2.toNat

section

variable {w : Nat} {d v : BitVec w} {i : Nat}

/-- R131: a quotient with no more bits than iterations so far takes one bit more in the next. -/
theorem two_mul_add_lt_two_pow_succ {q : Nat} (hq : q < 2 ^ i) (b : Bool) : 2 * q + b.toNat < 2 ^ (i + 1) := by
  rw [← Nat.bit_val]
  exact Nat.bit_lt_two_pow_succ_iff.mpr hq

/-- R127: what a bit appended to the quotient does to the product with the divisor. -/
theorem gf2mul_bringDown {q : BitVec w} {b : Bool} (h : 2 * q.toNat + b.toNat < 2 ^ w) (hw : 0 < w) (v : BitVec w) :
    gf2mul (bringDown q b) v = 2 * gf2mul q v ^^^ if b then v.toNat else 0 := by
  rw [gf2mul, toNat_bringDown_of_lt h hw, ← gf2mulBelow_of_lt_two_pow v.toNat h (Nat.le_succ w),
    gf2mulBelow_two_mul_add]
  rfl

/-- R100, R127: the next bit of the dividend is appended to those brought down before. -/
theorem div_two_pow_bitat (d : BitVec w) (hi : i < len d) :
    d.toNat / 2 ^ (len d - (i + 1)) = 2 * (d.toNat / 2 ^ (len d - i)) + (bitat d (i + 1)).toNat := by
  have hexp : len d - i = len d - (i + 1) + 1 := by omega
  rw [toNat_bitat d (Nat.le_add_left 1 i) hi, hexp, Nat.pow_succ, ← Nat.div_div_eq_div_mul]
  omega

/-- R126: before the first iteration nothing is brought down. -/
theorem DivisionInv.init (d : BitVec w) (hv : v ≠ 0) : DivisionInv d v 0 (0, 0) where
  quot_lt := by simp
  acc_shorter := len_zero_lt hv
  identity := by
    rw [Nat.sub_zero, Nat.div_eq_of_lt (toNat_lt_two_pow_len d)]
    simp

/-- R123, R127: an iteration takes one more bit of the dividend; the divisor that it may subtract from the accumulator
is the one that the new quotient bit adds to the product. -/
theorem DivisionInv.next {p : BitVec w × BitVec w} (h : DivisionInv d v i p) (hi : i < len d) :
    DivisionInv d v (i + 1) (divStep d v (i + 1) p.1 p.2) := by
  obtain ⟨hquot, hacc, hid⟩ := h
  have hiw : i < w := hi.trans_le (len_le_width d)
  have hlt := two_mul_add_lt_two_pow_succ hquot (fits v (bringDown p.2 (bitat d (i + 1))))
  have hltw := hlt.trans_le (Nat.pow_le_pow_right Nat.two_pos hiw)
  have hnum := toNat_bringDown_of_lt hltw (by omega)
  refine ⟨by rwa [divStep_eq, hnum], len_divStep_snd_lt hacc d (i + 1) p.1, ?_⟩
  rw [div_two_pow_bitat d hi, hid, two_mul_xor_add, ← toNat_bringDown_of_shorter hacc (bitat d (i + 1)), divStep_eq,
    gf2mul_bringDown hltw (by omega), BitVec.toNat_xor]
  split
  · rw [Nat.xor_assoc, Nat.xor_comm v.toNat, Nat.xor_xor_cancel_right]
  · simp

/-- R126: the invariant holds after every iteration. -/
theorem divisionInv_divRun (hv : v ≠ 0) (hi : i ≤ len d) : DivisionInv d v i (divRun d v i 1 0 0) := by
  induction i with
  | zero => exact .init d hv
  | succ i ih =>
    rw [divRun_snoc, Nat.add_comm 1 i]
    exact (ih (Nat.le_of_succ_le hi)).next hi

end

/-! ## Quotient and remainder -/

/-- R132: the two properties of quotient and remainder, the identity and the bound. -/
def IsQuotRem {w : Nat} (d v q r : BitVec w) : Prop := d.toNat = gf2mul q v ^^^ r.toNat ∧ len r < len v

section

variable {w : Nat} {d d' v q q' r r' : BitVec w}

/-- R126: a division by a nonzero divisor has a result. -/
theorem polydiv_of_ne_zero (hv : v ≠ 0) (d : BitVec w) : polydiv d v = .ok (divRun d v (len d) 1 0 0) := if_neg hv

/-- R127, R129: the result of the whole loop. -/
theorem isQuotRem_divRun (hv : v ≠ 0) (d : BitVec w) :
    IsQuotRem d v (divRun d v (len d) 1 0 0).1 (divRun d v (len d) 1 0 0).2 := by
  obtain ⟨-, hacc, hid⟩ := divisionInv_divRun (d := d) hv le_rfl
  rw [Nat.sub_self, Nat.pow_zero, Nat.div_one] at hid
  exact ⟨hid, hacc⟩

theorem IsQuotRem.product_eq (h : IsQuotRem d v q r) : gf2mul q v = (d ^^^ r).toNat := by
  rw [BitVec.toNat_xor, h.1, Nat.xor_xor_cancel_right]

/-- R132: the remainder is linear, and the quotient too. -/
theorem IsQuotRem.xor (h : IsQuotRem d v q r) (h' : IsQuotRem d' v q' r') :
    IsQuotRem (d ^^^ d') v (q ^^^ q') (r ^^^ r') := by
  obtain ⟨hid, hlt⟩ := h
  obtain ⟨hid', hlt'⟩ := h'
  constructor
  · rw [BitVec.toNat_xor, BitVec.toNat_xor, gf2mul_xor, hid, hid']
    ac_rfl
  · have hle : len (r ^^^ r') ≤ len v - 1 := len_xor_le (by omega) (by omega)
    omega

/-- R132: for the dividend 0 the remainder is a multiple of the divisor, and a nonzero multiple of the divisor is no
shorter than the divisor. -/
theorem IsQuotRem.eq_zero (hv : v ≠ 0) (h : IsQuotRem 0 v q r) : q = 0 ∧ r = 0 := by
  have hproduct : gf2mul q v = r.toNat := by simpa using h.product_eq
  obtain rfl : q = 0 := by
    by_contra hq
    have hsize := size_gf2mul_add_one hq hv
    have hpos := len_pos_of_ne_zero q hq
    have hlt := h.2
    rw [hproduct, ← len_eq_size] at hsize
    omega
  exact ⟨rfl, BitVec.eq_of_toNat_eq (by simp [← hproduct])⟩

/-- R132: at most one pair has the two properties. -/
theorem IsQuotRem.unique (hv : v ≠ 0) (h : IsQuotRem d v q r) (h' : IsQuotRem d v q' r') : q = q' ∧ r = r' := by
  have hdiff := h.xor h'
  rw [BitVec.xor_self] at hdiff
  obtain ⟨hq, hr⟩ := hdiff.eq_zero hv
  exact ⟨BitVec.xor_eq_zero_iff.mp hq, BitVec.xor_eq_zero_iff.mp hr⟩

/-- R132: the result of POLYDIV is the pair with the two properties. -/
theorem polydiv_eq_ok_iff (hv : v ≠ 0) : polydiv d v = .ok (q, r) ↔ IsQuotRem d v q r := by
  rw [polydiv_of_ne_zero hv]
  have hrun := isQuotRem_divRun hv d
  constructor
  · intro h
    rw [Except.ok.inj h] at hrun
    exact hrun
  · intro h
    obtain ⟨hq, hr⟩ := hrun.unique hv h
    rw [← hq, ← hr]

/-- R132: a dividend shorter than the divisor is its own remainder. -/
theorem isQuotRem_of_shorter (h : len d < len v) : IsQuotRem d v 0 d := ⟨by simp, h⟩

/-- R129: the divisor 1 divides every dividend. -/
theorem isQuotRem_one (hw : 0 < w) (d : BitVec w) : IsQuotRem d 1 d 0 :=
  ⟨by simp [gf2mul_one_right d hw], len_zero_lt (mt BitVec.one_eq_zero_iff.mp hw.ne')⟩

/-- R132: a nonzero word divides itself. -/
theorem isQuotRem_self (hv : v ≠ 0) : IsQuotRem v v 1 0 :=
  ⟨by simp [gf2mul_one_left v (pos_width_of_ne_zero hv)], len_zero_lt hv⟩

/-- R132: the length of the quotient of a dividend no shorter than the divisor. -/
theorem IsQuotRem.len_quot (hv : v ≠ 0) (h : IsQuotRem d v q r) (hle : len v ≤ len d) :
    len q = len d - len v + 1 := by
  have hproduct := h.product_eq
  have hlt := h.2
  have hsum : len (d ^^^ r) = len d := len_xor_of_lt (hlt.trans_le hle)
  have hq : q ≠ 0 := by
    rintro rfl
    have hzero : d ^^^ r = 0 := BitVec.eq_of_toNat_eq (by simp [← hproduct])
    have hlt := len_zero_lt hv
    rw [hzero] at hsum
    omega
  have hsize := size_gf2mul_add_one hq hv
  rw [hproduct, ← len_eq_size, hsum] at hsize
  omega

end

/-! ## The statements -/

/-- Settles O28: the invariant of the loop, after every iteration and at the end. -/
theorem divisionIdentity : Obligations.DivisionIdentity := by
  intro w d v hv
  obtain ⟨hid, -⟩ := isQuotRem_divRun hv d
  exact ⟨⟨_, _, polydiv_of_ne_zero hv d, hid⟩, fun i hi => (divisionInv_divRun hv hi).identity⟩

/-- Settles O31: the result has the two properties, a difference of two such pairs is a pair of the dividend 0, and the
derived facts name the pair. -/
theorem quotientAndRemainderUnique : Obligations.QuotientAndRemainderUnique := by
  intro w d v hv
  refine ⟨⟨divRun d v (len d) 1 0 0, isQuotRem_divRun hv d, fun p hp => ?_⟩, fun q r => polydiv_eq_ok_iff hv,
    fun hlt => ?_, ?_, fun _ hle q r h => ?_, fun d' q r q' r' h h' => ⟨q ^^^ q', ?_⟩⟩
  · obtain ⟨hq, hr⟩ := IsQuotRem.unique hv hp (isQuotRem_divRun hv d)
    exact Prod.ext hq hr
  · exact (polydiv_eq_ok_iff hv).mpr (isQuotRem_of_shorter hlt)
  · rintro rfl
    exact (polydiv_eq_ok_iff hv).mpr (isQuotRem_self hv)
  · exact ((polydiv_eq_ok_iff hv).mp h).len_quot hv hle
  · exact (polydiv_eq_ok_iff hv).mpr (((polydiv_eq_ok_iff hv).mp h).xor ((polydiv_eq_ok_iff hv).mp h'))

/-- Settles O29: by the invariant of the loop; in a state of the machine's invariant ACC is that of the loop. -/
theorem remainderShorterThanDivisor : Obligations.RemainderShorterThanDivisor := by
  constructor
  · intro w d v hv
    refine ⟨fun n hn => (divisionInv_divRun hv hn).acc_shorter, fun q r h => ?_, ?_⟩
    · have hlt := ((polydiv_eq_ok_iff hv).mp h).2
      exact ⟨hlt, .inr hlt⟩
    · rintro rfl
      exact (polydiv_eq_ok_iff hv).mpr (isQuotRem_one (pos_width_of_ne_zero hv) d)
  · intro s hinv hbusy hop hb
    obtain ⟨-, hidx, hloop⟩ := (busyInv_iff_of_division hop hb).mp ((regsInv_iff_of_busy hbusy).mp hinv)
    have hacc := (divisionInv_divRun (d := s.regs.a) hb (Nat.sub_le_of_le_add hidx)).acc_shorter
    rwa [← hloop] at hacc

/-- Settles O30: by the invariant before the iteration, and the iteration from an accumulator shorter than the
divisor. -/
theorem divisionNeverOverflows : Obligations.DivisionNeverOverflows := by
  intro w d v hv i h1 hi
  obtain ⟨hquot, hacc, -⟩ := divisionInv_divRun (d := d) hv ((Nat.sub_le i 1).trans hi)
  have hiw : i - 1 + 1 ≤ w := (Nat.sub_add_cancel h1).trans_le (hi.trans (len_le_width d))
  have hlt := (two_mul_add_lt_two_pow_succ hquot true).trans_le (Nat.pow_le_pow_right Nat.two_pos hiw)
  refine ⟨hquot, hlt, Nat.le_sub_one_of_lt hacc, len_le_width v, two_mul_add_lt_of_shorter hacc _,
    toNat_bringDown_of_shorter hacc _, len_bringDown_le hacc _, fun hfits => ?_, (fits_eq_false_iff v _).mp⟩
  have hle := (fits_iff v _).mp hfits
  exact ⟨(fits_bringDown_iff_len_eq hacc _).mp hle, Nat.le_sub_one_of_lt (len_bringDown_xor_lt hacc _ hle)⟩

end Sys2Proof.Machine

/-! EXEC of POLYDIV (R126): the zero divisor (R121), the iteration (R123), the finishing step (R125), and many of them
(R124). -/

namespace Sys2Proof.Machine

/-! ## One EXEC -/

section

variable {W : Width} {a b : Word W} {r : Regs W}

theorem polydivRegs_of_eq_zero (hb : b = 0) : polydivRegs a b r = raise .zeroDivisor r := if_pos hb

theorem polydivRegs_of_idx_le (hb : b ≠ 0) (h : r.idx.toNat ≤ len a) :
    polydivRegs a b r =
      advance (divStep a b r.idx.toNat r.quot r.acc).1 (divStep a b r.idx.toNat r.quot r.acc).2 r :=
  (if_neg hb).trans (if_pos h)

theorem polydivRegs_of_lt_idx (hb : b ≠ 0) (h : len a < r.idx.toNat) :
    polydivRegs a b r = respond r.quot r.acc r :=
  (if_neg hb).trans (if_neg (Nat.not_le.mpr h))

end

theorem width_bits_pos (W : Width) : 0 < W.bits := by cases W <;> decide

theorem trunc_ne_zero {w n : Nat} (h : n < 2 ^ w) (hne : n ≠ 0) : trunc w n ≠ 0 := mt (trunc_eq_zero_iff h).mp hne

/-- R126: one EXEC of POLYDIV is `polydivRegs` of its operands. -/
theorem exec_polydiv {s : State} {d v : Nat} (hd : d < 2 ^ s.width.bits) (hv : v < 2 ^ s.width.bits) :
    exec (.polydiv d v) s =
      .next { s with regs := polydivRegs (trunc s.width.bits d) (trunc s.width.bits v) s.regs } :=
  exec_eq_effect (i := .polydiv d v) ⟨hd, hv⟩


/-! ## Many EXECs -/

/-- R190: `k` EXECs of a command of this core are `k` times its effect on the registers. -/
theorem execTimes_eq_iterate_effect {i : Instr} (k : Nat) : ∀ {s : State}, i.WellFormed s.width →
    execTimes i k s = .next { s with regs := (effect i)^[k] s.regs } := by
  induction k with
  | zero => exact fun _ => rfl
  | succ k ih =>
    intro s h
    rw [execTimes_succ_of_next (exec_eq_effect h), Function.iterate_succ_apply]
    exact ih (s := { s with regs := effect i s.regs }) h

/-- R124: as long as dividend bits are left, each EXEC of a division from the values of ISSUE is an iteration of the
loop. -/
theorem polydivRegs_iterate {W : Width} {a b : Word W} {r : Regs W} (hb : b ≠ 0) (hquot : r.quot = 0)
    (hacc : r.acc = 0) (hidx : r.idx = 1) {k : Nat} (hk : k ≤ len a) :
    ∃ x : Counter W, x.toNat = k + 1 ∧
      (polydivRegs a b)^[k] r =
        { r with quot := (divRun a b k 1 0 0).1, acc := (divRun a b k 1 0 0).2, idx := x } := by
  induction k with
  | zero =>
    refine ⟨1, counter_one W, ?_⟩
    cases r
    cases hquot
    cases hacc
    cases hidx
    rfl
  | succ k ih =>
    obtain ⟨x, hx, hrun⟩ := ih (Nat.le_of_succ_le hk)
    have hle : x.toNat ≤ len a := hx ▸ hk
    refine ⟨x + 1, by rw [counter_succ x (hle.trans (len_le_width a)), hx], ?_⟩
    rw [Function.iterate_succ_apply', hrun, polydivRegs_of_idx_le hb (by exact hle), divRun_snoc, Nat.add_comm 1 k,
      ← hx]
    rfl

/-! ## The statements -/

/-- Settles O17: the zero divisor is checked before anything else. -/
theorem polydivRejectsZeroDivisor : Obligations.PolydivRejectsZeroDivisor := by
  intro s d hd
  have hzero : 0 < 2 ^ s.width.bits := Nat.two_pow_pos _
  rw [exec_polydiv hd hzero, polydivRegs_of_eq_zero ((trunc_eq_zero_iff hzero).mpr rfl)]
  rfl

/-- Settles O19: past the last bit of the dividend the divider has nothing left to bring down. -/
theorem polydivFinishes : Obligations.PolydivFinishes := by
  intro s d v hd hv hne hidx
  rw [exec_polydiv hd hv, polydivRegs_of_lt_idx (trunc_ne_zero hv hne) hidx]
  rfl

/-- Settles O32: a dividend without bits has its finishing step first. -/
theorem zeroDividendGivesZero : Obligations.ZeroDividendGivesZero := by
  intro s v hv hne hquot hacc hidx
  have hlt : len (trunc s.width.bits 0) < s.regs.idx.toNat := by
    rw [hidx, counter_one]
    simp [trunc]
  rw [polydivFinishes s 0 v (Nat.two_pow_pos _) hv hne hlt, hquot, hacc]

/-- Settles O33: the iterations from the values of ISSUE. -/
theorem polydivWorkingRegisters : Obligations.PolydivWorkingRegisters := by
  intro s d v hd hv hne hquot hacc hidx k hk
  obtain ⟨x, hx, hrun⟩ := polydivRegs_iterate (trunc_ne_zero hv hne) hquot hacc hidx hk
  refine ⟨x, hx, ?_⟩
  rw [execTimes_eq_iterate_effect (i := .polydiv d v) k ⟨hd, hv⟩, ← hrun]
  rfl

/-- Settles O18: ACC with the next bit brought down is the word that the divisor is held against; both outcomes of
`fits` append their bit to QUOT. -/
theorem polydivIterates : Obligations.PolydivIterates := by
  intro s d v hd hv hne h1 hidx
  have hv0 := trunc_ne_zero hv hne
  have hw := width_bits_pos s.width
  have hbit := bitat_of_mem (trunc s.width.bits d) s.regs.idx.toNat h1 hidx
  refine ⟨bringDown s.regs.acc (bitat (trunc s.width.bits d) s.regs.idx.toNat), ?_, ?_, fun hzero => ?_,
    fun hshort => ⟨fits_bringDown_iff_len_eq hshort _, fits_bringDown_iff_top_set hshort _⟩⟩
  · rw [toNat_bringDown _ _ hw, hbit]
  · rw [exec_polydiv hd hv, polydivRegs_of_idx_le hv0 hidx, divStep_eq, bringDown_eq_trunc s.regs.quot _ hw]
    by_cases hfits : len (trunc s.width.bits v) ≤
        len (bringDown s.regs.acc (bitat (trunc s.width.bits d) s.regs.idx.toNat))
    · rw [if_pos hfits, (fits_iff _ _).mpr hfits]
      rfl
    · rw [if_neg hfits, (fits_eq_false_iff _ _).mpr (Nat.lt_of_not_le hfits)]
      simp [advance]
  · rw [hzero]
    exact Nat.not_le.mpr (len_zero_lt hv0)

end Sys2Proof.Machine

/-! Scripts of the host that run to their end (R81): what they bind from an IDLE core, and how they are put together. -/

namespace Sys2Proof.Machine

/-- R81: a core of width `W` that a line of a script may be issued to. -/
def IdleCore (W : Width) (s : State) : Prop := s.width = W ∧ s.regs.phase = .idle

/-- R81: from every IDLE core of width `W` the script runs to its end, takes the names to `names'` and leaves the core
IDLE. -/
def ScriptBinds (W : Width) (lines : List ScriptLine) (names names' : Bindings) : Prop :=
  ∀ s : State, IdleCore W s → ∃ t : State, IdleCore W t ∧ runScript lines names s = .ok (names', t)

section

variable {W : Width} {line : ScriptLine} {lines lines' : List ScriptLine} {names names' names'' : Bindings}

theorem runScript_cons_of_ok {s t : State} (h : runLine line names s = .ok (names', t)) (lines : List ScriptLine) :
    runScript (line :: lines) names s = runScript lines names' t := by
  simp only [runScript, h]

theorem runScript_cons_of_error {s : State} {stop : ScriptStop} (h : runLine line names s = .error stop)
    (lines : List ScriptLine) : runScript (line :: lines) names s = .error stop := by
  simp only [runScript, h]

/-- R81: a script that runs to its end hands its names and the core over to the lines that follow it. -/
theorem runScript_append_of_ok {t : State} : ∀ {names : Bindings} {s : State},
    runScript lines names s = .ok (names', t) → runScript (lines ++ lines') names s = runScript lines' names' t := by
  induction lines with
  | nil =>
    intro names s h
    cases h
    rfl
  | cons line lines ih =>
    intro names s h
    rcases hline : runLine line names s with stop | ⟨names₁, s₁⟩
    · rw [runScript_cons_of_error hline] at h
      cases h
    · rw [runScript_cons_of_ok hline] at h
      rw [List.cons_append, runScript_cons_of_ok hline, ih h]

theorem ScriptBinds.append (h : ScriptBinds W lines names names') (h' : ScriptBinds W lines' names' names'') :
    ScriptBinds W (lines ++ lines') names names'' := by
  intro s hs
  obtain ⟨t, ht, hrun⟩ := h s hs
  obtain ⟨u, hu, hrun'⟩ := h' t ht
  exact ⟨u, hu, (runScript_append_of_ok hrun).trans hrun'⟩

/-- R81: a `host:` line binds its value, and the core takes no part in it. -/
theorem scriptBinds_host {e : HostExpr} {v : Nat} (h : evalHost names e = .ok v) (x : VarName) :
    ScriptBinds W [.host x e] names ((x, v) :: names) :=
  fun s hs => ⟨s, hs, by simp [runScript, runLine, h]⟩

/-- R81, R5: `exists_runCommand`, with the width that no command changes. -/
theorem exists_runCommand_of_idleCore {s : State} {i : Instr} (hs : IdleCore W s) (hwf : i.WellFormed W) :
    ∃ t : State, IdleCore W t ∧ runCommand i s = .ok (responseNumbers (answer W i), t) := by
  obtain ⟨rfl, hidle⟩ := hs
  obtain ⟨r, hr, hafter⟩ := commandAnsweredFromAnyIdleState s i hidle hwf
  refine ⟨{ s with regs := r, inputs := [], received := s.received ++ [answer s.width i] }, ⟨rfl, hr⟩, ?_⟩
  rw [runCommand, if_neg (not_not.mpr hidle), if_neg (not_not.mpr hwf), hafter]
  simp

/-- R81: a command line binds the outcome of its command. -/
theorem scriptBinds_command {m : Mnemonic} {a : ScriptOperand} {b : Option ScriptOperand} {bind : Binding} {i : Instr}
    {r : Response W} (hline : lineCommand names m a b = .ok i) (hwf : i.WellFormed W)
    (hanswer : answer W i = r) (hbind : bindOutcome names bind (responseNumbers r) = .ok names') :
    ScriptBinds W [.command m a b bind] names names' := by
  intro s hs
  obtain ⟨t, ht, hrun⟩ := exists_runCommand_of_idleCore hs hwf
  refine ⟨t, ht, runScript_cons_of_ok ?_ []⟩
  rw [runLine_command hline hrun, hanswer, hbind]
  rfl

end

end Sys2Proof.Machine

/-! The pseudo-commands DEGREE, CRCGEN and CRCCHK as scripts (R82, R140 to R142), and why a generated codeword checks
(R143) and an error is seen (R146). -/

namespace Sys2Proof.Machine

/-! ## The outcomes of the commands, by the words of their operands -/

section

variable {W : Width} {a v q r : Word W} {d : Nat}

/-- R92, R155: the outcome of BITLEN for a nonzero operand. -/
theorem answer_bitlen (hv : v ≠ 0) (b : Nat) : answer W (.bitlen v.toNat b) = .result (trunc W.bits (len v)) 0 := by
  simp only [answer, Instr.fieldA, trunc_toNat_of_word, if_neg hv]

/-- R110, R155: the outcome of EXTEND. -/
theorem answer_extend (hd : d < 2 ^ W.bits) : answer W (.extend a.toNat d) = .result (extendWord a d) 0 := by
  simp only [answer, Instr.fieldA, Instr.fieldB, trunc_toNat_of_word, trunc_toNat hd]

/-- R126, R155: the outcome of POLYDIV, by its quotient and remainder. -/
theorem answer_polydiv_of_ok (h : polydiv a v = .ok (q, r)) : answer W (.polydiv a.toNat v.toNat) = .result q r := by
  simp only [answer, Instr.fieldA, Instr.fieldB, trunc_toNat_of_word, h]

/-- R6, R140: the degree of a word fits in a word. -/
theorem len_sub_one_lt (v : Word W) : len v - 1 < 2 ^ W.bits :=
  ((Nat.sub_le _ 1).trans (len_le_width v)).trans_lt Nat.lt_two_pow_self

end

/-! ## The three scripts -/

section

variable {W : Width} {v q r : Word W} {names : Bindings}

/-- R141: DEGREE binds the bit length and, one less, the degree. -/
theorem scriptBinds_degreeLines (hv : v ≠ 0) (l d : VarName) :
    ScriptBinds W (degreeLines (.literal v.toNat) l d) names ((d, len v - 1) :: (l, len v) :: names) := by
  have hhost : evalHost ((l, len v) :: names) (.minusOne (.value (.name l))) = .ok (len v - 1) := by
    obtain ⟨k, hk, -⟩ := exists_testBit_top hv
    simp [evalHost, evalOperand, lookup, hk]
  refine ScriptBinds.append (lines := [_]) (scriptBinds_command (i := .bitlen v.toNat 0) rfl
    ⟨v.isLt, Nat.two_pow_pos _⟩ (answer_bitlen hv 0) ?_) (scriptBinds_host hhost d)
  simp [bindOutcome, responseNumbers, toNat_trunc_len]

/-- R123, R140, R142: a POLYDIV line binds quotient and remainder. -/
theorem scriptBinds_polydiv {a : Word W} {o : ScriptOperand} (ho : evalOperand names o = .ok a.toNat)
    (h : polydiv a v = .ok (q, r)) (x y : VarName) :
    ScriptBinds W [.command .polydiv o (some (.literal v.toNat)) (.both x y)] names
      ((y, r.toNat) :: (x, q.toNat) :: names) :=
  scriptBinds_command (i := .polydiv a.toNat v.toNat) (by simp only [lineCommand, ho]; rfl)
    ⟨a.isLt, v.isLt⟩ (answer_polydiv_of_ok h) rfl

/-- R140: the names that CRCGEN binds, for the divisor `v`, the extended message `e` and the result `(q, r)` of the
division. -/
def crcgenNames {W : Width} (v e q r : Word W) : Bindings :=
  [(5, (e ^^^ r).toNat), (4, r.toNat), (3, q.toNat), (2, e.toNat), (1, len v - 1), (0, len v)]

/-- R140: CRCGEN is DEGREE, then the extension of the message, the division and the XOR. -/
theorem scriptBinds_crcgenLines (hv : v ≠ 0) (m : Word W)
    (h : polydiv (extendWord m (len v - 1)) v = .ok (q, r)) :
    ScriptBinds W (crcgenLines (.literal m.toNat) (.literal v.toNat) 0 1 2 3 4 5) []
      (crcgenNames v (extendWord m (len v - 1)) q r) := by
  have hextend : ScriptBinds W [.command .extend (.literal m.toNat) (some (.name 1)) (.first 2)]
      [(1, len v - 1), (0, len v)]
      [(2, (extendWord m (len v - 1)).toNat), (1, len v - 1), (0, len v)] :=
    scriptBinds_command (i := .extend m.toNat (len v - 1)) rfl ⟨m.isLt, len_sub_one_lt v⟩
      (answer_extend (len_sub_one_lt v)) rfl
  have hdivide := hextend.append (scriptBinds_polydiv (o := .name 2) rfl h 3 4)
  have hxor := hdivide.append (scriptBinds_host (e := .xor (.value (.name 2)) (.value (.name 4))) rfl 5)
  rw [crcgenNames, BitVec.toNat_xor]
  exact (scriptBinds_degreeLines hv 0 1).append hxor

/-- R142: CRCCHK binds quotient and remainder of the word it checks, and whether the remainder is 0. -/
theorem scriptBinds_crcchkLines {c : Word W} {o : ScriptOperand} (ho : evalOperand names o = .ok c.toNat)
    (h : polydiv c v = .ok (q, r)) (x y z : VarName) :
    ScriptBinds W (crcchkLines o (.literal v.toNat) x y z) names
      ((z, if r.toNat = 0 then 1 else 0) :: (y, r.toNat) :: (x, q.toNat) :: names) :=
  (scriptBinds_polydiv ho h x y).append
    (scriptBinds_host (e := .isZero (.value (.name y))) (by simp [evalHost, evalOperand, lookup]) z)

end

/-! ## Codewords and errors -/

section

variable {w : Nat} {c d v q q' r err : BitVec w}

/-- R143: a dividend with its remainder added to it is a multiple of the divisor. -/
theorem IsQuotRem.xor_remainder (hv : v ≠ 0) (h : IsQuotRem d v q r) : IsQuotRem (d ^^^ r) v q 0 :=
  ⟨by simp [h.product_eq], len_zero_lt hv⟩

/-- R146: a dividend that leaves no remainder does not change the remainder of another that it is added to. -/
theorem IsQuotRem.xor_multiple (h : IsQuotRem c v q 0) (h' : IsQuotRem err v q' r) :
    IsQuotRem (c ^^^ err) v (q ^^^ q') r := by
  simpa using h.xor h'

/-- R146: a dividend that leaves no remainder may be added to an error or taken from a corrupted word. -/
theorem IsQuotRem.exists_xor_iff (h : IsQuotRem c v q 0) :
    (∃ q'', IsQuotRem (c ^^^ err) v q'' r) ↔ ∃ q', IsQuotRem err v q' r := by
  constructor
  · rintro ⟨q'', h''⟩
    have herr := h.xor_multiple h''
    rw [← BitVec.xor_assoc, BitVec.xor_self, BitVec.zero_xor] at herr
    exact ⟨_, herr⟩
  · rintro ⟨q', h'⟩
    exact ⟨_, h.xor_multiple h'⟩

/-- R132: the remainder is 0 exactly for the multiples of the divisor. -/
theorem isQuotRem_zero_iff (hv : v ≠ 0) : IsQuotRem d v q 0 ↔ d.toNat = gf2mul q v := by
  simp [IsQuotRem, len_pos_of_ne_zero v hv]

/-- R140: in contract the remainder fills the zeros that the extension appended, and the message stays above it. -/
theorem extendWord_xor_parts {m : BitVec w} {k : Nat} (h : m.toNat * 2 ^ k < 2 ^ w) (hr : r.toNat < 2 ^ k) :
    (extendWord m k ^^^ r).toNat / 2 ^ k = m.toNat ∧ (extendWord m k ^^^ r).toNat % 2 ^ k = r.toNat := by
  rw [toNat_extendWord_xor h hr, toNat_extendWord_of_lt m k h, Nat.add_comm]
  exact ⟨by rw [Nat.add_mul_div_right _ _ (Nat.two_pow_pos k), Nat.div_eq_of_lt hr, Nat.zero_add],
    by rw [Nat.add_mul_mod_self_right, Nat.mod_eq_of_lt hr]⟩

end

/-- R72: an operand in range is the number of a word. -/
theorem exists_word_toNat {W : Width} {n : Nat} (h : n < 2 ^ W.bits) : ∃ x : Word W, x.toNat = n :=
  ⟨trunc W.bits n, trunc_toNat h⟩

theorem ne_zero_of_toNat_ne_zero {w : Nat} {x : BitVec w} (h : x.toNat ≠ 0) : x ≠ 0 :=
  fun hx => h (by simp [hx])

/-! ## The statements -/

/-- Settles O57: the codeword is the extended message with its own remainder added, so the division of the codeword
leaves 0. -/
theorem crcRoundTrip : Obligations.CrcRoundTrip := by
  intro s m v hidle hm hv hne
  obtain ⟨m, rfl⟩ := exists_word_toNat hm
  obtain ⟨v, rfl⟩ := exists_word_toNat hv
  have hv0 := ne_zero_of_toNat_ne_zero hne
  have hgen := isQuotRem_divRun hv0 (extendWord m (len v - 1))
  have hcheck := (polydiv_eq_ok_iff hv0).mpr (hgen.xor_remainder hv0)
  have hscript := (scriptBinds_crcgenLines hv0 m ((polydiv_eq_ok_iff hv0).mpr hgen)).append
    (scriptBinds_crcchkLines (o := .name 5) rfl hcheck 6 7 8)
  obtain ⟨t, ht, hrun⟩ := hscript s ⟨rfl, hidle⟩
  exact ⟨_, t, hrun, by simp [lookup], by simp [lookup], ht.2⟩

/-- Settles O55: BITLEN fails on 0, which its line does not expect. -/
theorem degreeScript : Obligations.DegreeScript := by
  intro s v hidle hv
  constructor
  · rintro rfl
    have hanswer : answer s.width (.bitlen 0 0) = .failure .zeroOperand := rfl
    obtain ⟨hfirst, -⟩ :=
      scriptStopsAtAnUnexpectedFailure s [] .bitlen (.literal 0) none (.bitlen 0 0) _ hidle ⟨hv, hv⟩ rfl hanswer
    exact runScript_cons_of_error (hfirst 0) _
  · intro hne
    obtain ⟨v, rfl⟩ := exists_word_toNat hv
    obtain ⟨t, ht, hrun⟩ := scriptBinds_degreeLines (ne_zero_of_toNat_ne_zero hne) 0 1 s ⟨rfl, hidle⟩
    exact ⟨_, t, hrun, by simp [lookup], ht.2⟩

/-- Settles O56: by the script's names; the remainder is shorter than the divisor, so it has at most as many bits as the
extension appends. -/
theorem crcgenScript : Obligations.CrcgenScript := by
  intro s m v hidle hm hv hne
  obtain ⟨m, rfl⟩ := exists_word_toNat hm
  obtain ⟨v, rfl⟩ := exists_word_toNat hv
  have hv0 := ne_zero_of_toNat_ne_zero hne
  have hgen := isQuotRem_divRun hv0 (extendWord m (len v - 1))
  have hdiv := (polydiv_eq_ok_iff hv0).mpr hgen
  obtain ⟨t, ht, hrun⟩ := scriptBinds_crcgenLines hv0 m hdiv s ⟨rfl, hidle⟩
  have hr := (len_le_iff_lt_two_pow _).mp (Nat.le_sub_one_of_lt hgen.2)
  rw [trunc_toNat_of_word, trunc_toNat_of_word]
  exact ⟨_, t, _, _, _, _, hrun, ht.2, rfl, rfl, rfl, rfl, hdiv, rfl, rfl, fun h => extendWord_xor_parts h hr⟩

/-- Settles O58: the codeword leaves no remainder, so the sum has the remainder of the error. -/
theorem errorsSeenByTheirOwnRemainder : Obligations.ErrorsSeenByTheirOwnRemainder := by
  intro w c err v q hv hc
  simp only [polydiv_eq_ok_iff hv] at hc ⊢
  exact ⟨fun q' _ h => ⟨q ^^^ q', hc.xor_multiple h⟩,
    hc.exists_xor_iff.trans (exists_congr fun _ => isQuotRem_zero_iff hv),
    fun _ hlt => ⟨q ^^^ 0, hc.xor_multiple (isQuotRem_of_shorter hlt)⟩⟩

end Sys2Proof.Machine

/-! The exceptions: the cause codes (R150), the outcome of every command by its operands (R155), and what a failing
EXEC writes (R157, R158); and no step stops the machine (R168). -/

namespace Sys2Proof.Machine

/-! ## What a failing command writes -/

/-- R157, R158: a command that fails raises the cause of its outcome, whatever the registers hold. -/
theorem effect_eq_raise_of_failure {W : Width} {i : Instr} {c : InvalidArgument} (h : answer W i = .failure c)
    (r : Regs W) : effect i r = raise c r := by
  rcases effect_cases i r with
    ⟨c', heffect, hans⟩ | ⟨_, _, -, -, hans⟩ | ⟨_, _, rfl, hv, -⟩ | ⟨_, _, rfl, hv, -⟩
  case inl =>
    obtain rfl : c' = c := Response.failure.inj (hans.symm.trans h)
    exact heffect
  case inr.inl => cases hans.symm.trans h
  case inr.inr.inl => cases (answer_polydiv hv).symm.trans h
  case inr.inr.inr => cases (answer_polydiv hv).symm.trans h

/-- Settles O20: an EXEC of a failing command is `raise` on the registers. -/
theorem raiseWritesCauseAndPhaseOnly : Obligations.RaiseWritesCauseAndPhaseOnly := by
  intro s i c hwf hfail
  rw [exec_eq_effect hwf, effect_eq_raise_of_failure hfail]
  rfl

/-! ## No step stops the machine -/

/-- Settles O41: one event after the other; COLLECT alone adds to what the host has received. -/
theorem stepAlwaysAnswersAState : Obligations.StepAlwaysAnswersAState := by
  intro s
  rcases step_cases s with ⟨-, h⟩ | ⟨_, -, -, h⟩ | ⟨-, -, h⟩ | ⟨-, -, h⟩ | ⟨-, h⟩
  case inr.inr.inr.inl => exact ⟨_, _, _, _, h, rfl, List.prefix_append _ _⟩
  all_goals exact ⟨_, _, _, _, h, rfl, List.prefix_rfl⟩

/-! ## The cause codes -/

/-- Settles O21: a cause is read back from its code, and only 0 is no cause. -/
theorem causeCodes : Obligations.CauseCodes := ⟨rfl, rfl, rfl, rfl, ofCode_code, ofCode_eq_none_iff⟩

/-! ## The outcomes of the commands, by the numbers in their operand fields -/

section

variable {W : Width} {a b : Nat}

/-- R92, R93, R155: the outcome of BITLEN, by its operand. -/
theorem answer_bitlen_eq_ite (ha : a < 2 ^ W.bits) (b : Nat) :
    answer W (.bitlen a b) =
      if a = 0 then .failure .zeroOperand else .result (trunc W.bits (len (trunc W.bits a))) 0 :=
  if_congr (trunc_eq_zero_iff ha) rfl rfl

/-- R102, R155, R156: the outcome of BITAT, by its operands; ZERO_OPERAND has priority over INDEX_RANGE. -/
theorem answer_bitat_eq_ite (ha : a < 2 ^ W.bits) (hb : b < 2 ^ W.bits) :
    answer W (.bitat a b) =
      if a = 0 then .failure .zeroOperand
      else if b = 0 ∨ len (trunc W.bits a) < b then .failure .indexRange
      else .result (zextBit W.bits (bitat (trunc W.bits a) b)) 0 := by
  simp only [answer, Instr.fieldA, Instr.fieldB, trunc_eq_zero_iff ha, trunc_eq_zero_iff hb, trunc_toNat hb]

/-- R121, R152, R155: POLYDIV fails for the zero divisor, whatever the dividend. -/
theorem answer_polydiv_of_zero_divisor (a : Nat) : answer W (.polydiv a 0) = .failure .zeroDivisor := by
  have hp : polydiv (trunc W.bits a) (trunc W.bits 0) = .error .zeroDivisor := if_pos rfl
  simp only [answer, Instr.fieldA, Instr.fieldB, hp]

end

/-- Settles O22: row by row, from the outcome of each command. -/
theorem outcomeTable : Obligations.OutcomeTable := by
  intro W a b ha hb
  rw [answer_bitlen_eq_ite ha b, answer_bitat_eq_ite ha hb]
  refine ⟨fun h => if_pos h, fun h => ⟨_, _, if_neg h⟩, fun h => if_pos h, fun h h0 => ?_, fun h hout => ?_,
    fun h h1 hin => ?_, ⟨_, _, rfl⟩, ?_, fun h => ⟨_, _, answer_polydiv (trunc_ne_zero hb h)⟩⟩
  · exact (if_neg h).trans (if_pos (.inl h0))
  · exact (if_neg h).trans (if_pos (.inr hout))
  · exact ⟨_, _, (if_neg h).trans (if_neg (by omega))⟩
  · rintro rfl
    exact answer_polydiv_of_zero_divisor a

end Sys2Proof.Machine

/-! A command from ISSUE to DONE (R190): how many EXEC steps it makes, and what they leave. -/

namespace Sys2Proof.Machine

/-! ## The number of EXEC steps -/

/-- R190: a division by a nonzero divisor, the only command with more than one EXEC step. -/
def IsDivision (i : Instr) : Prop := ∃ d v, i = .polydiv d v ∧ v ≠ 0

section

variable {W : Width} {i : Instr}

theorem execSteps_of_division (d : Nat) {v : Nat} (hv : v ≠ 0) :
    execSteps W (.polydiv d v) = len (trunc W.bits d) + 1 := if_neg hv

theorem execSteps_of_not_division (h : ¬ IsDivision i) : execSteps W i = 1 := by
  cases i with
  | bitlen | bitat | extend => rfl
  | polydiv d v => exact if_pos (by_contra fun hv => h ⟨d, v, rfl, hv⟩)

/-- R190: every command makes an EXEC step, and none more than `W + 1`. -/
theorem execSteps_bounds (W : Width) (i : Instr) : 1 ≤ execSteps W i ∧ execSteps W i ≤ W.bits + 1 := by
  by_cases h : IsDivision i
  · obtain ⟨d, v, rfl, hv⟩ := h
    rw [execSteps_of_division d hv]
    exact ⟨Nat.le_add_left 1 _, Nat.succ_le_succ (len_le_width _)⟩
  · rw [execSteps_of_not_division h]
    exact ⟨le_rfl, Nat.le_add_left 1 _⟩

end

/-! ## What the EXEC steps leave -/

section

variable {W : Width} {r : Regs W}

/-- R24: no number of EXEC steps writes OP, A and B. -/
theorem effect_iterate_keeps_latches (i : Instr) (r : Regs W) (k : Nat) :
    ((effect i)^[k] r).op = r.op ∧ ((effect i)^[k] r).a = r.a ∧ ((effect i)^[k] r).b = r.b := by
  induction k with
  | zero => exact ⟨rfl, rfl, rfl⟩
  | succ k ih =>
    rw [Function.iterate_succ_apply']
    obtain ⟨hop, ha, hb⟩ := effect_keeps_latches i ((effect i)^[k] r)
    rwa [hop, ha, hb]

/-- R92, R102, R110, R121: a command that is no division by a nonzero divisor is finished by any one EXEC, with its
outcome. -/
theorem effect_finishes_of_not_division {i : Instr} (h : ¬ IsDivision i) (r : Regs W) :
    (effect i r).phase = .done ∧ response (effect i r) = answer W i := by
  rcases effect_cases i r with ⟨c, he, hans⟩ | ⟨x, y, he, -, hans⟩ | ⟨d, v, rfl, hv, -⟩ | ⟨d, v, rfl, hv, -⟩
  case inl => exact ⟨by rw [he, raise_phase], by rw [he, hans, response_raise]⟩
  case inr.inl => exact ⟨by rw [he, respond_phase], by rw [he, hans, response_respond]⟩
  all_goals exact absurd ⟨d, v, rfl, fun hzero => hv (by rw [hzero]; rfl)⟩ h

/-- R124, R125, R190: after its `len(A)` iterations a division has its finishing step, which responds with its outcome.
-/
theorem effect_iterate_finishes_division {d v : Nat} (hv : trunc W.bits v ≠ 0) (hquot : r.quot = 0) (hacc : r.acc = 0)
    (hidx : r.idx = 1) :
    ((effect (.polydiv d v))^[len (trunc W.bits d) + 1] r).phase = .done ∧
      response ((effect (.polydiv d v))^[len (trunc W.bits d) + 1] r) = answer W (.polydiv d v) := by
  have heffect : (effect (.polydiv d v) : Regs W → Regs W) = polydivRegs (trunc W.bits d) (trunc W.bits v) := rfl
  obtain ⟨x, hx, hrun⟩ := polydivRegs_iterate hv hquot hacc hidx (le_refl (len (trunc W.bits d)))
  have hlast : len (trunc W.bits d) < x.toNat := by omega
  rw [heffect, Function.iterate_succ_apply', hrun, polydivRegs_of_lt_idx hv (by exact hlast), response_respond,
    answer_polydiv hv]
  exact ⟨rfl, rfl⟩

/-- R190: before its last EXEC step a command is in progress. -/
theorem effect_iterate_phase_of_lt {i : Instr} (hwf : i.WellFormed W) (hphase : r.phase = .busy) (hquot : r.quot = 0)
    (hacc : r.acc = 0) (hidx : r.idx = 1) {k : Nat} (hk : k < execSteps W i) : ((effect i)^[k] r).phase = .busy := by
  by_cases h : IsDivision i
  · obtain ⟨d, v, rfl, hv⟩ := h
    rw [execSteps_of_division d hv] at hk
    obtain ⟨x, -, hrun⟩ :=
      polydivRegs_iterate (trunc_ne_zero hwf.2 hv) hquot hacc hidx (Nat.le_of_lt_succ hk)
    exact (congrArg Regs.phase hrun).trans hphase
  · rw [execSteps_of_not_division h, Nat.lt_one_iff] at hk
    rw [hk]
    exact hphase

/-- R190: its last EXEC step finishes a command with the outcome of its operands. -/
theorem effect_iterate_finishes {i : Instr} (hwf : i.WellFormed W) (hquot : r.quot = 0) (hacc : r.acc = 0)
    (hidx : r.idx = 1) :
    ((effect i)^[execSteps W i] r).phase = .done ∧ response ((effect i)^[execSteps W i] r) = answer W i := by
  by_cases h : IsDivision i
  · obtain ⟨d, v, rfl, hv⟩ := h
    rw [execSteps_of_division d hv]
    exact effect_iterate_finishes_division (trunc_ne_zero hwf.2 hv) hquot hacc hidx
  · rw [execSteps_of_not_division h]
    exact effect_finishes_of_not_division h r

end

/-- Settles O34: EXEC steps are the iterates of `effect`, which has its one-step commands and the division. -/
theorem everyCommandReachesItsAnswer : Obligations.EveryCommandReachesItsAnswer := by
  intro s i hwf hphase hquot hacc hidx
  obtain ⟨hpos, hle⟩ := execSteps_bounds s.width i
  obtain ⟨hdone, hresponse⟩ := effect_iterate_finishes hwf hquot hacc hidx
  exact ⟨hpos, hle,
    fun k hk => ⟨_, execTimes_eq_iterate_effect k hwf, effect_iterate_phase_of_lt hwf hphase hquot hacc hidx hk⟩,
    _, execTimes_eq_iterate_effect _ hwf, hdone, hresponse, effect_iterate_keeps_latches i s.regs _⟩

end Sys2Proof.Machine

/-! RESET and the start of a run (R180 to R183), and a command in progress under a host that does not reset (R190,
R191). -/

namespace Sys2Proof.Machine

/-! ## RESET -/

/-- Settles O39: whatever else stands at the inputs, the event is RESET. -/
theorem resetWins : Obligations.ResetWins := by
  intro s hrst
  have hevent : eventNow s = some .reset := if_pos hrst
  exact ⟨scramble s.width s.resets, step_of_reset hevent, rfl, rfl, rfl⟩

/-- Settles O47: a run starts IDLE, where the invariant asks nothing. -/
theorem invAtReset : Obligations.InvAtReset := fun _ => trivial

/-! ## A command in progress -/

theorem execsLeft_of_not_division {W : Width} {r : Regs W} (hphase : r.phase = .busy)
    (hdiv : ¬ (r.op = 3 ∧ r.b ≠ 0)) : execsLeft r = 1 := by
  simp only [execsLeft, hphase]
  exact if_neg hdiv

/-- R190: a command in progress never has more than `W + 1` EXEC steps left. -/
theorem execsLeft_le {W : Width} {r : Regs W} (hphase : r.phase = .busy) (hinv : BusyInv r) :
    execsLeft r ≤ W.bits + 1 := by
  by_cases hdiv : r.op = 3 ∧ r.b ≠ 0
  · obtain ⟨hop, hb⟩ := hdiv
    obtain ⟨hpos, -, -⟩ := (busyInv_iff_of_division hop hb).mp hinv
    have hlen := len_le_width r.a
    rw [execsLeft_of_division hphase hop hb]
    omega
  · rw [execsLeft_of_not_division hphase hdiv]
    exact Nat.le_add_left 1 _

/-- R191: a core that has a command in progress, with its invariant, and a host that will not reset it. -/
structure InProgress (s : State) : Prop where
  busy : s.regs.phase = .busy
  inv : BusyInv s.regs
  noReset : ∀ e ∈ s.inputs, e.rst = false

/-- The steps that bring the end of a command in progress nearer: an EXEC, or an instant of the host's list at which the
core makes none (log entry 3). -/
def stepsLeft (s : State) : Nat := s.inputs.length + execsLeft s.regs

section

variable {s : State}

/-- R191: at an instant without an EXEC of a core in progress something stands at its inputs: the host's list is not
over. -/
theorem InProgress.inputs_ne_nil (h : InProgress s) (hevent : eventNow s = none) : s.inputs ≠ [] := by
  intro hnil
  have hquiet : edgeNow s = Edge.quiet := by simp [edgeNow, hnil]
  rw [eventNow, hquiet, eventAt_quiet, if_pos h.busy] at hevent
  cases hevent

/-- R190, R191: a step finishes the command in progress or brings its end nearer. -/
theorem InProgress.exists_step (h : InProgress s) :
    ∃ t, step s = .next t ∧ (t.regs.phase = .done ∨ (InProgress t ∧ stepsLeft t < stepsLeft s)) := by
  have hrest : ∀ e ∈ s.inputs.tail, e.rst = false := fun e he => h.noReset e (List.mem_of_mem_tail he)
  have hevent : eventNow s = none ∨ eventNow s = some .exec := by
    rw [eventNow, eventAt_of_busy h.busy, edgeNow_rst_eq_false h.noReset]
    cases (edgeNow s).run
    · exact .inl rfl
    · exact .inr rfl
  rcases hevent with hnone | hexec
  · refine ⟨_, step_of_no_event hnone, .inr ⟨⟨h.busy, h.inv, hrest⟩, ?_⟩⟩
    have hpos := List.length_pos_iff.mpr (h.inputs_ne_nil hnone)
    simp only [stepsLeft, List.length_tail]
    omega
  · refine ⟨_, step_of_exec hexec, ?_⟩
    rcases effect_finishes_or_progresses h.busy h.inv with ⟨hdone, -⟩ | ⟨hbusy, hinv, hless⟩
    · exact .inl hdone
    · exact .inr ⟨⟨hbusy, hinv, hrest⟩, Nat.add_lt_add_of_le_of_lt s.inputs.tail_sublist.length_le hless⟩

/-- R190, R191: so the command is finished after at most that many steps. -/
theorem InProgress.exists_runSteps_done (m : Nat) : ∀ {s : State}, InProgress s → stepsLeft s ≤ m →
    ∃ (n : Nat) (t : State), n ≤ m ∧ runSteps n s = .next t ∧ t.regs.phase = .done := by
  induction m with
  | zero =>
    intro s h hleft
    have hpos := execsLeft_pos h.busy h.inv
    simp only [stepsLeft] at hleft
    omega
  | succ m ih =>
    intro s h hleft
    obtain ⟨t, hstep, hdone | ⟨ht, hless⟩⟩ := h.exists_step
    · exact ⟨1, t, Nat.le_add_left 1 m, runSteps_succ_of_next hstep 0, hdone⟩
    · obtain ⟨n, u, hn, hrun, hdone⟩ := ih ht (by omega)
      exact ⟨n + 1, u, Nat.succ_le_succ hn, (runSteps_succ_of_next hstep n).trans hrun, hdone⟩

end

/-- Settles O49: the host's list and the EXEC steps of R190 together bound the steps that are left. -/
theorem busyCoreReachesDone : Obligations.BusyCoreReachesDone := by
  intro s hinv hbusy hrst
  have hbusyInv : BusyInv s.regs := (regsInv_iff_of_busy hbusy).mp hinv
  exact InProgress.exists_runSteps_done _ ⟨hbusy, hbusyInv, hrst⟩
    (Nat.add_le_add_left (execsLeft_le hbusy hbusyInv) _)

end Sys2Proof.Machine

/-! The caller's duties (R187): the commands within them have results, those outside them fail or lose bits, and a host
that keeps them never receives a failure (R168). -/

namespace Sys2Proof.Machine

/-! ## One command -/

section

variable {W : Width} {i : Instr}

/-- R187: a command within the operand preconditions has a result. -/
theorem exists_result_of_inContract (hwf : i.WellFormed W) (h : InContract W i) : ∃ x y, answer W i = .result x y := by
  cases i with
  | bitlen n unused => exact ⟨_, _, (answer_bitlen_eq_ite hwf.1 unused).trans (if_neg h)⟩
  | bitat value index =>
    obtain ⟨hvalue, hpos, hle⟩ := h
    have hindex : ¬ (index = 0 ∨ len (trunc W.bits value) < index) := by omega
    exact ⟨_, _, (answer_bitat_eq_ite hwf.1 hwf.2).trans ((if_neg hvalue).trans (if_neg hindex))⟩
  | extend message degree => exact ⟨_, _, rfl⟩
  | polydiv dividend divisor => exact ⟨_, _, answer_polydiv (trunc_ne_zero hwf.2 h)⟩

/-- R113: out of contract the result of EXTEND is smaller than the product, whose high bits are lost. -/
theorem toNat_extendWord_lt_mul {w : Nat} {m : BitVec w} {d : Nat} (h : ¬ m.toNat * 2 ^ d < 2 ^ w) :
    (extendWord m d).toNat < m.toNat * 2 ^ d := by
  rw [toNat_extendWord]
  exact (Nat.mod_lt _ (Nat.two_pow_pos w)).trans_le (Nat.le_of_not_lt h)

/-- R113, R187: a command outside the operand preconditions fails, or is an EXTEND that loses bits. -/
theorem failure_or_extend_of_not_inContract (hwf : i.WellFormed W) (h : ¬ InContract W i) :
    (∃ c, answer W i = .failure c) ∨
    (∃ (m d : Nat) (x : Word W), i = .extend m d ∧ answer W i = .result x 0 ∧ x.toNat < m * 2 ^ d) := by
  cases i with
  | bitlen n unused => exact .inl ⟨_, (answer_bitlen_eq_ite hwf.1 unused).trans (if_pos (of_not_not h))⟩
  | bitat value index =>
    have hanswer := answer_bitat_eq_ite hwf.1 hwf.2
    by_cases hvalue : value = 0
    · exact .inl ⟨_, hanswer.trans (if_pos hvalue)⟩
    · have hindex : index = 0 ∨ len (trunc W.bits value) < index := by
        by_contra hin
        exact h ⟨hvalue, by omega, by omega⟩
      exact .inl ⟨_, hanswer.trans ((if_neg hvalue).trans (if_pos hindex))⟩
  | extend message degree =>
    obtain ⟨m, rfl⟩ := exists_word_toNat hwf.1
    exact .inr ⟨_, _, _, rfl, answer_extend hwf.2, toNat_extendWord_lt_mul h⟩
  | polydiv dividend divisor =>
    obtain rfl : divisor = 0 := of_not_not h
    exact .inl ⟨_, answer_polydiv_of_zero_divisor dividend⟩

end

/-! ## A run -/

/-- R72, R77: whatever word a host issues, it spells a command of the core. -/
theorem wellFormed_of_mem_issuedNow {s : State} {i : Instr} (h : i ∈ issuedNow s) : i.WellFormed s.width := by
  by_cases hissue : ∃ word, eventNow s = some (.issue word)
  · obtain ⟨word, hword⟩ := hissue
    rw [issuedNow_of_issue hword, List.mem_singleton] at h
    rw [h]
    exact decodeWord_wellFormed word
  · rw [issuedNow_eq_nil (not_exists.mp hissue)] at h
    exact absurd h List.not_mem_nil

theorem wellFormed_of_mem_issuedIn {i : Instr} (n : Nat) : ∀ {s : State}, i ∈ issuedIn n s → i.WellFormed s.width := by
  induction n with
  | zero => exact fun h => absurd h List.not_mem_nil
  | succ n ih =>
    intro s h
    obtain ⟨r, ins, got, k, hstep, -⟩ := stepAlwaysAnswersAState s
    rw [issuedIn_succ_of_next hstep, List.mem_append] at h
    rcases h with hnow | hlater
    · exact wellFormed_of_mem_issuedNow hnow
    · exact ih (s := { width := s.width, regs := r, inputs := ins, received := got, resets := k }) hlater

/-- R168: outcomes of commands within the duties, added to the host's record, add no failure to it. -/
theorem noFailure_append_answers {s : State} {cmds : List Instr} (h : NoFailure s)
    (hcmds : ∀ i ∈ cmds, i.WellFormed s.width ∧ InContract s.width i) :
    ∀ r ∈ s.received ++ cmds.map (answer s.width), isResult r = true := by
  intro r hr
  rcases List.mem_append.mp hr with hold | hnew
  · exact h r hold
  · obtain ⟨i, hi, rfl⟩ := List.mem_map.mp hnew
    obtain ⟨hwf, hduty⟩ := hcmds i hi
    obtain ⟨x, y, hxy⟩ := exists_result_of_inContract hwf hduty
    rw [hxy]
    rfl

/-- Settles O52: the responses of a run are the outcomes of commands issued in it (`responsesComeInIssueOrder`). -/
theorem callerDutiesPreventFailures : Obligations.CallerDutiesPreventFailures := by
  refine ⟨fun _ _ => exists_result_of_inContract, fun _ _ => failure_or_extend_of_not_inContract, ?_⟩
  intro s t n hidle hrst hclean hduties hrun
  obtain ⟨r, answered, pending, hnext, hissued, -⟩ := responsesComeInIssueOrder s n hidle hrst
  obtain rfl := Host.Outcome.next.inj (hnext.symm.trans hrun)
  refine noFailure_append_answers hclean fun i hi => ?_
  have hmem : i ∈ issuedIn n s := hissued ▸ List.mem_append_left pending hi
  exact ⟨wellFormed_of_mem_issuedIn n hmem, hduties i hmem⟩

end Sys2Proof.Machine

/-! Reading a number as a command: the request words written in the spec (R70, R71, R79). -/

namespace Sys2Proof

/-- R72, R77: the command of an accepted number is a command of the core. -/
theorem wellFormed_of_decode_eq_ok {W : Width} {n : Nat} {i : Instr} (h : decode W n = .ok i) : i.WellFormed W := by
  have hlt : n < 2 ^ W.wireBits := by
    by_contra hge
    rw [decode_of_ge (Nat.le_of_not_lt hge)] at h
    cases h
  rw [decode_of_lt hlt] at h
  cases h
  exact decodeWord_wellFormed _

/-- Settles O7: the decoder is evaluated on each of the six words. -/
theorem specWordsDecode : Obligations.SpecWordsDecode := ⟨rfl, rfl, rfl, rfl, rfl, rfl⟩

end Sys2Proof

/-! Placing a command where the next step runs it (R22, R24, R30; log entry 9). -/

namespace Sys2Proof.Machine

/-- R24, R30: the command that ISSUE latches is the command in progress. -/
theorem current_latch {W : Width} {i : Instr} (h : i.WellFormed W) (r : Regs W) :
    current (latch i.opcode (trunc W.bits i.fieldA) (trunc W.bits i.fieldB) r) = i := by
  obtain ⟨ha, hb⟩ := h
  rw [current, latch_op, latch_a, latch_b, trunc_toNat ha, trunc_toNat hb, ofFields_opcode_fields]

theorem withFetchWord_of_decode_eq_ok {s : State} {nbits w : Nat} {i : Instr}
    (h : decode s.width (w % 2 ^ nbits) = .ok i) : s.withFetchWord nbits w = holding i s := by
  rw [State.withFetchWord, h]

/-- R31: with a command just issued and nothing at the inputs, a step is one EXEC of that command; the host is then where
it was before the command was placed. -/
theorem step_holding {i : Instr} {s : State} (h : i.WellFormed s.width) :
    step (holding i s) =
      exec i { s with regs := latch i.opcode (trunc s.width.bits i.fieldA) (trunc s.width.bits i.fieldB) s.regs } := by
  have hcurrent : current (holding i s).regs = i := current_latch h s.regs
  have hexec := stepRunsTheDecodedCommand.1 (holding i s) rfl rfl rfl
  rw [hcurrent] at hexec
  exact hexec

/-- Settles O36: placing the word is holding its command, and a held command is the next EXEC. -/
theorem placedWordRunsNext : Obligations.PlacedWordRunsNext := by
  intro s nbits w i hdecode
  rw [withFetchWord_of_decode_eq_ok hdecode]
  exact step_holding (wellFormed_of_decode_eq_ok hdecode)

end Sys2Proof.Machine
